-- ==== Sys2Proof/Word.lean ====
section
/-! DEFINITION. The words of the machine: the widths of rule R3 (00_scope.md) under the names the model uses. -/

namespace Sys2Proof

/-- A byte, "8-bit value" (R13). -/
abbrev Byte := BitVec 8

/-- The content of a general register and of one location of data memory: 64 bits (R20, R40). -/
abbrev DWord := BitVec 64

/-- An instruction word: 32 bits, always (R60). Bit 31 of the number is the source's bit 0 (R46). -/
abbrev Insn := BitVec 32

/-- An effective address of data memory, 32 bits (R41). -/
abbrev Addr := BitVec 32

/-- A general register's number, the unsigned value of a 5-bit specifier (R20). -/
abbrev Reg := Fin 32

end Sys2Proof
end

