-- ==== Sys2Proof/Machine/Flags.lean ====
section
/-! DEFINITION. Conditions. The machine has no status flag, condition code or predicate register (R27): add discards its
carry, subtract its overflow, and the one condition there is, is the branches' test of a register. -/

namespace Sys2Proof

/-- "If (rD) == 0": all 64 bits of the register are zero (R27, R160, R161). -/
def isZero (v : DWord) : Bool := v == 0

end Sys2Proof
end

