-- ==== Sys2Proof/Syntax.lean ====
section
/-! DEFINITION. The instruction set as syntax: the 23 rows of the encoding table (R75), with the control fields WW and
PPP as closed types. An illegal word is no instruction (R163 asks that the two be kept apart): the decoder answers with a
reason for it, see Sys2Proof/Decode.lean. -/

namespace Sys2Proof

/-- The operand width that the WW field selects (R66), named by its assembly letter. -/
inductive Width where
  /-- WW = 00: 8 bits. -/
  | b
  /-- WW = 01: 16 bits. -/
  | h
  /-- WW = 10: 32 bits. -/
  | w
  /-- WW = 11: 64 bits. -/
  | d
  deriving DecidableEq, Repr

/-- What the PPP field selects (R68): the bytes of rD that commit their results. The values 101, 110 and 111 are
reserved and have no constructor (R72). -/
inductive Participation where
  /-- PPP = 000, letter a: "All bytes participate". -/
  | all
  /-- PPP = 001, letter u: "Upper 32-bits participate". -/
  | upper
  /-- PPP = 010, letter d: "Lower 32-bits participate". -/
  | lower
  /-- PPP = 011, letter e: "Bytes with even index participate". -/
  | even
  /-- PPP = 100, letter o: "Bytes with odd index participate". -/
  | odd
  deriving DecidableEq, Repr

/-- One constructor per row of the table of R75, in its order. In the R-type rows `rd`, `ra`, `rb` are the register
fields, `sh` the 5-bit shift amount that stands in rB's place (R74). In the M-layout rows the first argument is the
register of source bits 6:10 (loaded, stored or tested, R62) and `imm` the 16-bit immediate address (R73). -/
inductive Instr where
  | vand (rd ra rb : Reg) (ppp : Participation) (ww : Width)
  | vor (rd ra rb : Reg) (ppp : Participation) (ww : Width)
  | vxor (rd ra rb : Reg) (ppp : Participation) (ww : Width)
  | vnot (rd ra : Reg) (ppp : Participation) (ww : Width)
  | vmov (rd ra : Reg) (ppp : Participation) (ww : Width)
  | vadd (rd ra rb : Reg) (ppp : Participation) (ww : Width)
  | vsub (rd ra rb : Reg) (ppp : Participation) (ww : Width)
  | vmuleu (rd ra rb : Reg) (ppp : Participation) (ww : Width)
  | vmulou (rd ra rb : Reg) (ppp : Participation) (ww : Width)
  | vsqeu (rd ra : Reg) (ppp : Participation) (ww : Width)
  | vsqou (rd ra : Reg) (ppp : Participation) (ww : Width)
  | vrtth (rd ra : Reg) (ppp : Participation) (ww : Width)
  | vsll (rd ra rb : Reg) (ppp : Participation) (ww : Width)
  | vslli (rd ra : Reg) (sh : BitVec 5) (ppp : Participation) (ww : Width)
  | vsrl (rd ra rb : Reg) (ppp : Participation) (ww : Width)
  | vsrli (rd ra : Reg) (sh : BitVec 5) (ppp : Participation) (ww : Width)
  | vsra (rd ra rb : Reg) (ppp : Participation) (ww : Width)
  | vsrai (rd ra : Reg) (sh : BitVec 5) (ppp : Participation) (ww : Width)
  | vld (rd : Reg) (imm : BitVec 16)
  | vsd (rs : Reg) (imm : BitVec 16)
  | vbez (rd : Reg) (imm : BitVec 16)
  | vbnez (rd : Reg) (imm : BitVec 16)
  | vnop
  deriving DecidableEq, Repr

end Sys2Proof
end

