-- ==== Sys2Proof/WellFormed.lean ====
section
/-! DEFINITION. Which terms of `Instr` are instructions of the table. The types already rule out a register above 31, a
shift amount above 31, an address above 65535 and a reserved PPP; what is left is the width of multiply and square. -/

namespace Sys2Proof

/-- The width has a double-width result that fits a register: WW = 11 "is not defined for VMULEU, VMULOU, VSQEU and
VSQOU" (R67). -/
def Width.multiplies : Width → Bool
  | .b | .h | .w => true
  | .d => false

/-- The terms that are instructions: the further conditions in the last column of R75's table. -/
def WellFormed : Instr → Bool
  | .vmuleu _ _ _ _ ww => ww.multiplies
  | .vmulou _ _ _ _ ww => ww.multiplies
  | .vsqeu _ _ _ ww => ww.multiplies
  | .vsqou _ _ _ ww => ww.multiplies
  | .vand .. | .vor .. | .vxor .. | .vnot .. | .vmov .. => true
  | .vadd .. | .vsub .. => true
  | .vrtth .. | .vsll .. | .vslli .. | .vsrl .. | .vsrli .. | .vsra .. | .vsrai .. => true
  | .vld .. | .vsd .. | .vbez .. | .vbnez .. | .vnop => true

end Sys2Proof
end

