-- ==== Sys2Proof/Decode.lean ====
section
/-! DEFINITION. Decoding, total on 32-bit words (R76), with a name for each reason why a word is illegal (R77), and the
encoder written from the same tables (R61 to R63, R75). -/

namespace Sys2Proof

/-- Why a word is illegal: the cases of R76 and R77. Every one of them executes as a no-operation (R163); the names only
keep the reasons apart. -/
inductive IllegalWord where
  /-- The major opcode is none of the six of R65. -/
  | unlistedOpcode
  /-- Opcode 101010 with function 000000 or above 010010 (R75). -/
  | unlistedFunction
  /-- Opcode 101010 with PPP 101, 110 or 111 (R72). -/
  | reservedParticipation
  /-- rB is not 00000 in VNOT, VMOV, VSQEU, VSQOU or VRTTH (R76). -/
  | nonzeroSecondSource
  /-- WW = 11 in VMULEU, VMULOU, VSQEU or VSQOU (R67). -/
  | unsupportedWidth
  /-- Source bits 11:15 are not 00000 in VLD, VSD, VBEZ or VBNEZ (R76). -/
  | nonzeroMField
  /-- Opcode 111100 with any other bit set (R63, R77). -/
  | notExactlyVnop
  deriving DecidableEq, Repr

/-! ### The control fields -/

/-- WW (R66). -/
def Width.ofCode (c : BitVec 2) : Width :=
  if c = 0 then .b else if c = 1 then .h else if c = 2 then .w else .d

/-- WW (R66). -/
def Width.code : Width → BitVec 2
  | .b => 0
  | .h => 1
  | .w => 2
  | .d => 3

/-- PPP (R68); none for the reserved values 101, 110, 111. -/
def Participation.ofCode (c : BitVec 3) : Option Participation :=
  if c = 0 then some .all else if c = 1 then some .upper else if c = 2 then some .lower
  else if c = 3 then some .even else if c = 4 then some .odd else none

/-- PPP (R68). -/
def Participation.code : Participation → BitVec 3
  | .all => 0
  | .upper => 1
  | .lower => 2
  | .even => 3
  | .odd => 4

/-! ### The fields of a word, in LSB-0 positions (R61, R62) -/

/-- The major opcode, `insn[31:26]`. -/
def fieldOpcode (w : Insn) : BitVec 6 := w.extractLsb' 26 6

/-- The register field in rD's position, `insn[25:21]`. -/
def fieldRd (w : Insn) : BitVec 5 := w.extractLsb' 21 5

/-- rA, `insn[20:16]`; 00000 in the M layout. -/
def fieldRa (w : Insn) : BitVec 5 := w.extractLsb' 16 5

/-- rB, the shift amount, or 00000: `insn[15:11]`. -/
def fieldRb (w : Insn) : BitVec 5 := w.extractLsb' 11 5

/-- PPP, `insn[10:8]`. -/
def fieldPpp (w : Insn) : BitVec 3 := w.extractLsb' 8 3

/-- WW, `insn[7:6]`. -/
def fieldWw (w : Insn) : BitVec 2 := w.extractLsb' 6 2

/-- The function field, `insn[5:0]`. -/
def fieldFunction (w : Insn) : BitVec 6 := w.extractLsb' 0 6

/-- The immediate address, `insn[15:0]` (R73). -/
def fieldImm (w : Insn) : BitVec 16 := w.extractLsb' 0 16

/-- The register that a specifier names (R20). -/
def regOf (f : BitVec 5) : Reg := f.toFin

/-- The specifier of a register (R20). -/
def regCode (r : Reg) : BitVec 5 := BitVec.ofFin r

/-! ### The decoder -/

/-- A one-source operation: its rB field must be 00000 (R76). -/
def oneSource (rb : BitVec 5) (i : Instr) : Except IllegalWord Instr :=
  if rb = 0 then .ok i else .error .nonzeroSecondSource

/-- A multiply or square: WW = 11 is illegal (R67). -/
def notDouble (ww : Width) (i : Except IllegalWord Instr) : Except IllegalWord Instr :=
  if ww.multiplies then i else .error .unsupportedWidth

/-- The R-type instruction with function `fn`, from the fields of the word (R64, R75, R76). -/
def decodeFunction (fn : BitVec 6) (rd ra : Reg) (rb : BitVec 5) (ppp : Participation) (ww : Width) :
    Except IllegalWord Instr :=
  if fn = 1 then .ok (.vand rd ra (regOf rb) ppp ww)
  else if fn = 2 then .ok (.vor rd ra (regOf rb) ppp ww)
  else if fn = 3 then .ok (.vxor rd ra (regOf rb) ppp ww)
  else if fn = 4 then oneSource rb (.vnot rd ra ppp ww)
  else if fn = 5 then oneSource rb (.vmov rd ra ppp ww)
  else if fn = 6 then .ok (.vadd rd ra (regOf rb) ppp ww)
  else if fn = 7 then .ok (.vsub rd ra (regOf rb) ppp ww)
  else if fn = 8 then notDouble ww (.ok (.vmuleu rd ra (regOf rb) ppp ww))
  else if fn = 9 then notDouble ww (.ok (.vmulou rd ra (regOf rb) ppp ww))
  else if fn = 10 then notDouble ww (oneSource rb (.vsqeu rd ra ppp ww))
  else if fn = 11 then notDouble ww (oneSource rb (.vsqou rd ra ppp ww))
  else if fn = 12 then oneSource rb (.vrtth rd ra ppp ww)
  else if fn = 13 then .ok (.vsll rd ra (regOf rb) ppp ww)
  else if fn = 14 then .ok (.vslli rd ra rb ppp ww)
  else if fn = 15 then .ok (.vsrl rd ra (regOf rb) ppp ww)
  else if fn = 16 then .ok (.vsrli rd ra rb ppp ww)
  else if fn = 17 then .ok (.vsra rd ra (regOf rb) ppp ww)
  else if fn = 18 then .ok (.vsrai rd ra rb ppp ww)
  else .error .unlistedFunction

/-- Opcode 101010 (R76). -/
def decodeR (w : Insn) : Except IllegalWord Instr :=
  match Participation.ofCode (fieldPpp w) with
  | none => .error .reservedParticipation
  | some ppp =>
    decodeFunction (fieldFunction w) (regOf (fieldRd w)) (regOf (fieldRa w)) (fieldRb w) ppp
      (Width.ofCode (fieldWw w))

/-- The M layout: source bits 11:15 must be 00000 (R62, R76). -/
def decodeM (w : Insn) (i : Reg → BitVec 16 → Instr) : Except IllegalWord Instr :=
  if fieldRa w = 0 then .ok (i (regOf (fieldRd w)) (fieldImm w)) else .error .nonzeroMField

/-- Decoding: one of the 23 instructions, or the reason why the word is illegal (R65, R76). -/
def decode (w : Insn) : Except IllegalWord Instr :=
  if fieldOpcode w = 0b101010 then decodeR w
  else if fieldOpcode w = 0b100000 then decodeM w .vld
  else if fieldOpcode w = 0b100001 then decodeM w .vsd
  else if fieldOpcode w = 0b100010 then decodeM w .vbez
  else if fieldOpcode w = 0b100011 then decodeM w .vbnez
  else if fieldOpcode w = 0b111100 then
    if w = 0xF0000000 then .ok .vnop else .error .notExactlyVnop
  else .error .unlistedOpcode

/-! ### The encoder -/

/-- Format R (R61): opcode, rD, rA, the rB position, PPP, WW, function, from the most significant bit down. -/
def encodeR (rd ra : Reg) (rb : BitVec 5) (ppp : Participation) (ww : Width) (fn : BitVec 6) : Insn :=
  (0b101010 : BitVec 6) ++ regCode rd ++ regCode ra ++ rb ++ ppp.code ++ ww.code ++ fn

/-- Format M (R62): opcode, the register, 00000, the immediate address. -/
def encodeM (op : BitVec 6) (r : Reg) (imm : BitVec 16) : Insn :=
  op ++ regCode r ++ (0 : BitVec 5) ++ imm

/-- The word of an instruction (R61 to R63, R75). -/
def encode : Instr → Insn
  | .vand rd ra rb ppp ww => encodeR rd ra (regCode rb) ppp ww 0b000001
  | .vor rd ra rb ppp ww => encodeR rd ra (regCode rb) ppp ww 0b000010
  | .vxor rd ra rb ppp ww => encodeR rd ra (regCode rb) ppp ww 0b000011
  | .vnot rd ra ppp ww => encodeR rd ra 0 ppp ww 0b000100
  | .vmov rd ra ppp ww => encodeR rd ra 0 ppp ww 0b000101
  | .vadd rd ra rb ppp ww => encodeR rd ra (regCode rb) ppp ww 0b000110
  | .vsub rd ra rb ppp ww => encodeR rd ra (regCode rb) ppp ww 0b000111
  | .vmuleu rd ra rb ppp ww => encodeR rd ra (regCode rb) ppp ww 0b001000
  | .vmulou rd ra rb ppp ww => encodeR rd ra (regCode rb) ppp ww 0b001001
  | .vsqeu rd ra ppp ww => encodeR rd ra 0 ppp ww 0b001010
  | .vsqou rd ra ppp ww => encodeR rd ra 0 ppp ww 0b001011
  | .vrtth rd ra ppp ww => encodeR rd ra 0 ppp ww 0b001100
  | .vsll rd ra rb ppp ww => encodeR rd ra (regCode rb) ppp ww 0b001101
  | .vslli rd ra sh ppp ww => encodeR rd ra sh ppp ww 0b001110
  | .vsrl rd ra rb ppp ww => encodeR rd ra (regCode rb) ppp ww 0b001111
  | .vsrli rd ra sh ppp ww => encodeR rd ra sh ppp ww 0b010000
  | .vsra rd ra rb ppp ww => encodeR rd ra (regCode rb) ppp ww 0b010001
  | .vsrai rd ra sh ppp ww => encodeR rd ra sh ppp ww 0b010010
  | .vld rd imm => encodeM 0b100000 rd imm
  | .vsd rs imm => encodeM 0b100001 rs imm
  | .vbez rd imm => encodeM 0b100010 rd imm
  | .vbnez rd imm => encodeM 0b100011 rd imm
  | .vnop => 0xF0000000

/-! ### The rows of the table -/

/-- A row of the opcode table as R75 prints it: a word `w` has the row's opcode, function and fixed-zero fields when
`w AND mask` is `bits` (the column "match"). -/
structure Row where
  bits : Insn
  mask : Insn
  deriving DecidableEq, Repr

/-- The row of each instruction, copied from the columns "match" and "mask" of R75, not computed from `encode`. -/
def Instr.row : Instr → Row
  | .vand .. => ⟨0xA8000001, 0xFC00003F⟩
  | .vor .. => ⟨0xA8000002, 0xFC00003F⟩
  | .vxor .. => ⟨0xA8000003, 0xFC00003F⟩
  | .vnot .. => ⟨0xA8000004, 0xFC00F83F⟩
  | .vmov .. => ⟨0xA8000005, 0xFC00F83F⟩
  | .vadd .. => ⟨0xA8000006, 0xFC00003F⟩
  | .vsub .. => ⟨0xA8000007, 0xFC00003F⟩
  | .vmuleu .. => ⟨0xA8000008, 0xFC00003F⟩
  | .vmulou .. => ⟨0xA8000009, 0xFC00003F⟩
  | .vsqeu .. => ⟨0xA800000A, 0xFC00F83F⟩
  | .vsqou .. => ⟨0xA800000B, 0xFC00F83F⟩
  | .vrtth .. => ⟨0xA800000C, 0xFC00F83F⟩
  | .vsll .. => ⟨0xA800000D, 0xFC00003F⟩
  | .vslli .. => ⟨0xA800000E, 0xFC00003F⟩
  | .vsrl .. => ⟨0xA800000F, 0xFC00003F⟩
  | .vsrli .. => ⟨0xA8000010, 0xFC00003F⟩
  | .vsra .. => ⟨0xA8000011, 0xFC00003F⟩
  | .vsrai .. => ⟨0xA8000012, 0xFC00003F⟩
  | .vld .. => ⟨0x80000000, 0xFC1F0000⟩
  | .vsd .. => ⟨0x84000000, 0xFC1F0000⟩
  | .vbez .. => ⟨0x88000000, 0xFC1F0000⟩
  | .vbnez .. => ⟨0x8C000000, 0xFC1F0000⟩
  | .vnop => ⟨0xF0000000, 0xFFFFFFFF⟩

/-! ### The bytes of a word -/

/-- Byte `j` of a value in the source's numbering: byte 0 is the most significant one (R4, R7). -/
def byteOf {n : Nat} (v : BitVec n) (j : Nat) : Byte := v.extractLsb' (n - 8 * (j + 1)) 8

/-- The instruction word whose bytes 0 to 3 are given: byte 0, the first in an image, holds the opcode (R46). -/
def insnOfBytes (b0 b1 b2 b3 : Byte) : Insn := b0 ++ b1 ++ b2 ++ b3

/-- The instruction a row's bits stand for. A row has 32 bits, and the table numbers them as the word does: bit 0 is the
least significant bit of the 32-bit number (R46, R75). The word is laid out as its four bytes, most significant first, and
given to the decoder; an illegal word answers none. -/
def decodeTableWord (nbits w : Nat) : Option Instr :=
  let word : Insn := BitVec.ofNat 32 (w % 2 ^ nbits)
  (decode (insnOfBytes (byteOf word 0) (byteOf word 1) (byteOf word 2) (byteOf word 3))).toOption

end Sys2Proof
end

