-- ==== Sys2Proof/Machine/Operands.lean ====
section
/-! DEFINITION. What the operand fields of an instruction stand for: the subfields that WW cuts a register into (R6, R66),
the bytes that PPP lets through (R68 to R70), shift amounts (R131, R132) and immediate addresses (R41, R73). -/

namespace Sys2Proof

/-! ### Subfields -/

/-- The operand width in bits (R66). -/
@[reducible] def Width.size : Width → Nat
  | .b => 8
  | .h => 16
  | .w => 32
  | .d => 64

/-- How many subfields of that width a register holds: `64 / size` (R66). -/
def Width.count : Width → Nat
  | .b => 8
  | .h => 4
  | .w => 2
  | .d => 1

/-- How many results of twice that width a register holds: `64 / (2 * size)` (R124). At 64 bits there is none. -/
def Width.pairs : Width → Nat
  | .b => 4
  | .h => 2
  | .w => 1
  | .d => 0

/-- `bits` of the immediate shifts (R74, R132): 3, 4, 5, 5, since the field has only 5 bits. -/
def Width.immBits : Width → Nat
  | .b => 3
  | .h => 4
  | .w => 5
  | .d => 5

/-- `sub(v, size, k)` (R6): subfield `k` of a register, subfield 0 the most significant. -/
def subfield (size : Nat) (v : DWord) (k : Nat) : BitVec size := v.extractLsb' (64 - size * (k + 1)) size

/-- `pack(size, [e 0, ..., e (n-1)])` (R6): the subfields one under the other, `e 0` the most significant. -/
def pack (size : Nat) : Nat → (Nat → BitVec size) → DWord
  | 0, _ => 0
  | n + 1, e => (pack size n e <<< size) ||| (e n).setWidth 64

/-- The loop "For i = 0 to (64 - size) by size" of an operation on one source: subfield `k` of the result from subfield `k`
of the source. -/
def mapLanes (ww : Width) (f : BitVec ww.size → BitVec ww.size) (a : DWord) : DWord :=
  pack ww.size ww.count fun k => f (subfield ww.size a k)

/-- The same loop for two sources. -/
def zipLanes (ww : Width) (f : BitVec ww.size → BitVec ww.size → BitVec ww.size) (a b : DWord) : DWord :=
  pack ww.size ww.count fun k => f (subfield ww.size a k) (subfield ww.size b k)

/-! ### Participation -/

/-- `part(ppp, j)` (R69): byte `j` of rD, `j` in 0..7, commits its result. -/
def Participation.part : Participation → Nat → Bool
  | .all, _ => true
  | .upper, j => decide (j < 4)
  | .lower, j => decide (4 ≤ j)
  | .even, j => decide (j % 2 = 0)
  | .odd, j => decide (j % 2 = 1)

/-- `wmask(ppp)`, the mask column of R68. -/
def Participation.mask : Participation → DWord
  | .all => 0xFFFFFFFFFFFFFFFF
  | .upper => 0xFFFFFFFF00000000
  | .lower => 0x00000000FFFFFFFF
  | .even => 0xFF00FF00FF00FF00
  | .odd => 0x00FF00FF00FF00FF

/-- What a masked write leaves in the register (R70): the participating bytes of `v`, the other bytes of `old`. -/
def Participation.merge (ppp : Participation) (old v : DWord) : DWord :=
  (old &&& ~~~ppp.mask) ||| (v &&& ppp.mask)

/-! ### Shifts -/

/-- The amount a register form shifts a subfield by: its `log2(size)` low bits, `sub(x[rB], size, k) mod size` (R131). -/
def laneAmount (ww : Width) (b : BitVec ww.size) : Nat := b.toNat % ww.size

/-- The amount an immediate form shifts every subfield by: `shift_amount mod 2^bits` (R74, R132). -/
def immAmount (ww : Width) (sh : BitVec 5) : Nat := sh.toNat % 2 ^ ww.immBits

/-- `{s{(rA)[i]}, (rA)[i:(i+size-s-1)]}` (R137): shift right by `s`, the top `s` bits copies of the sign. -/
def shiftRightArith {size : Nat} (a : BitVec size) (s : Nat) : BitVec size :=
  (a >>> s) ||| (if a.msb then ((1#size <<< s) - 1#size) <<< (size - s) else 0)

/-- Exchange of the two halves (R130): `((s mod 2^h) << h) OR (s >> h)` with `h = size / 2`. -/
def swapHalves {size : Nat} (a : BitVec size) : BitVec size := (a <<< (size / 2)) ||| (a >>> (size / 2))

/-! ### Immediate addresses -/

/-- "EA <- {16{0}, immediate_address}": the effective address of a load or store, zero-extended to 32 bits (R41, R73). -/
def zextAddr (imm : BitVec 16) : Addr := imm.setWidth 32

/-- `zext_PC_WIDTH(imm16)`, the target of a branch: the immediate itself, unscaled and absolute (R26, R73). A pc of 16 bits or
more holds every such value (D2). -/
def branchAddr (imm : BitVec 16) : Nat := imm.toNat

end Sys2Proof
end

