-- ==== Sys2Proof/Config.lean ====
section
/-! DEFINITION. What an implementation fixes (the parameters of rule R3 that the source leaves open, with the defaults the
spec decided) and the one free value of the model: what data memory holds where nothing has defined it. -/

namespace Sys2Proof.Config

/-- The unit of the program counter and of a branch target (R23, decision D3). -/
inductive PcUnit where
  /-- `PC_STRIDE` = 1: the pc counts instructions. The default. -/
  | instruction
  /-- `PC_STRIDE` = 4: the pc counts bytes. "4 is the only other sensible value" (D3). -/
  | byte
  deriving DecidableEq, Repr

/-- `PC_STRIDE`: by how much the pc advances per instruction. -/
def PcUnit.stride : PcUnit → Nat
  | .instruction => 1
  | .byte => 4

/-- How many bytes of the program image one unit of the pc covers: an instruction is 4 bytes (R60). -/
def PcUnit.imageBytes : PcUnit → Nat
  | .instruction => 4
  | .byte => 1

/-- The parameters of the machine that the spec keeps open (R3, R33); `IMEM` and `DMEM_INIT` are the two images that
`State.resetWith` takes. -/
structure Params where
  /-- `R0_HARDWIRED_ZERO` (R21, D1). -/
  r0HardwiredZero : Bool
  /-- `DMEM_WORDS`, the number of 64-bit words of data memory (R42, D5). -/
  dmemWords : Nat
  /-- `PC_WIDTH`, the width of the program counter in bits, 16 or more (R23, D2, U11). -/
  pcWidth : Nat
  /-- `PC_STRIDE` (R23, D3). -/
  pcUnit : PcUnit
  /-- `PC_RESET` (R34, D6). -/
  pcReset : Nat
  /-- `HAZARD_DISTANCE` (R196, R197, D15): read by Sys2Proof/Safety.lean alone. -/
  hazardDistance : Nat
  deriving DecidableEq, Repr

/-- The defaults of rule R3: this hardware as the spec decides it. -/
def gold : Params where
  r0HardwiredZero := false
  dmemWords := 65536
  pcWidth := 32
  pcUnit := .instruction
  pcReset := 0
  hazardDistance := 0

/-- FREE VALUE. The byte that data memory holds at a byte address that neither `DMEM_INIT` nor a store has defined:
"unspecified", "an arbitrary 64-bit value fixed at reset" per word (R34, D19, 93_implementation_defined.md U8). It has no
body, so nothing can be proved of it beyond that it is one fixed byte per address (assumption 2). -/
opaque unwrittenByte : Nat → BitVec 8

end Sys2Proof.Config
end

