-- ==== Sys2Proof/Machine/State.lean ====
section
/-! DEFINITION. The state of the machine (R33), the ways a step can stop, and the state after reset (R34, R190). -/

namespace Sys2Proof.Machine

/-- A memory: byte cells in strictly rising order of address. An address that is not listed holds no byte that the host or
a store has defined, so its reading is `none`, and no listed byte can equal it; what a load then gives is decided in one
place, `State.dmemByte`. -/
abbrev Memory := List Host.Cell

/-- The canonical form: addresses strictly rise. (No entry equals the reading of an unlisted address, because that is
`none`.) -/
def Memory.wf : Memory → Bool
  | [] => true
  | [_] => true
  | (a, _) :: (b, c) :: m => decide (a < b) && Memory.wf ((b, c) :: m)

/-- The whole state: the tuple `(x[0..31], pc, DMEM)` of R33, and with it the parameters of the step function, which R33
says are not state and which stand here because `step` has no other argument; no step changes them (assumptions 4, 5). -/
structure State where
  /-- The register-file `x[0]` to `x[31]`, 64 bits each (R20). -/
  regs : Vector DWord 32
  /-- The program counter (R23): the address of the instruction being executed (R24), an unsigned number of `PC_WIDTH` bits.
  The width is a parameter (R3), so it is no part of the type: `State.advance` wraps at it, and `Safety.Inv` says that the pc
  lies below `2 ^ PC_WIDTH` (assumption 6). -/
  pc : Nat
  /-- Data memory `DMEM` (R30, R40): byte `j` of the 64-bit word at address `a` is the cell `8 * a + j`. -/
  dmem : Memory
  /-- Instruction memory, the program image `IMEM` (R31, R47): byte `j` of the word at instruction address `a` is the cell
  `4 * a + j` (`a + j` where the pc counts bytes). No instruction can write it (R49). -/
  imem : Memory
  /-- The parameters of R3 (IMEM aside). -/
  params : Config.Params
  deriving DecidableEq, Repr

/-- Why a step stops. In each case the spec says that the machine "has no step", that it is "stuck": none of them is an
exception of the hardware, which raises none (R170), and none can be raised by an instruction under the defaults of R3. -/
inductive Fault where
  /-- `step` raises it where the pc is not in the domain of `IMEM`: the run has ended (R48, R194, U10). Safe: what the chip
  does there is unknown, and the model proves nothing past it. -/
  | runEnded
  /-- VLD and VSD raise it where `EA >= DMEM_WORDS`, possible only with a `DMEM_WORDS` below 65536 (R42, U9). Safe: the
  spec says the machine is stuck. -/
  | dmemOutOfRange
  /-- VBEZ and VBNEZ raise it where the branch is taken to an address that is no multiple of `PC_STRIDE`, possible only
  with `PC_STRIDE` = 4 (R44, D3, U12). Safe: the spec says the model gives it no step. -/
  | misalignedTarget
  deriving DecidableEq, Repr

/-- Why the model declines to give a step. -/
inductive Refusal where
  /-- `exec` raises it for an instruction that has no meaning in the model yet, by its mnemonic; no arm does so. Safe. -/
  | notModelled (mnemonic : String)
  deriving DecidableEq, Repr

/-- Reset with the parameters and the two images the host has placed (R190, R192): the pc at `PC_RESET`, data memory as
`DMEM_INIT` defines it, the program image in place. The registers are "unspecified" (R34); the model names the value zero
for each of them (assumption 1, DESIGN CHOICE, unsafe). -/
def State.resetWith (p : Config.Params) (imem dmemInit : Memory) : State where
  regs := Vector.replicate 32 0
  pc := p.pcReset
  dmem := dmemInit
  imem := imem
  params := p

/-- The machine right after reset under the defaults of R3, no program and no data placed yet. -/
def State.reset : State := State.resetWith Config.gold [] []

end Sys2Proof.Machine
end

