-- ==== Sys2Proof/Machine/Ops.lean ====
section
/-! DEFINITION. The named operations over registers, memories and the pc, through which every meaning acts. There is no
exception to take and none to return from (R170, R175, R176); an illegal instruction is a no-operation (R163). -/

namespace Sys2Proof.Machine

/-! ### Cells -/

/-- The byte listed at an address; none where no byte is listed. -/
def Memory.lookup : Memory → Nat → Option Byte
  | [], _ => none
  | (k, c) :: m, a => if a = k then some c else Memory.lookup m a

/-- The memory with one byte written, in its place in the order of addresses. -/
def Memory.write : Memory → Nat → Byte → Memory
  | [], a, b => [(a, b)]
  | (k, c) :: m, a, b =>
    if a < k then (a, b) :: (k, c) :: m
    else if a = k then (a, b) :: m
    else (k, c) :: Memory.write m a b

/-- The bytes `f 0` to `f (n-1)` written at `base` to `base + n - 1`. -/
def Memory.writeBytes (m : Memory) (base : Nat) : Nat → (Nat → Byte) → Memory
  | 0, _ => m
  | n + 1, f => (Memory.writeBytes m base n f).write (base + n) (f n)

/-! ### General registers -/

/-- `x[i]` (R20, R21): all 32 registers are ordinary, but that register 0 reads as 0 where `R0_HARDWIRED_ZERO` is true. -/
def State.readReg (s : State) (r : Reg) : DWord :=
  if s.params.r0HardwiredZero && r == 0 then 0 else s.regs[r]

/-- `x[i] <- v` (R20, R21): a write to register 0 is dropped where `R0_HARDWIRED_ZERO` is true. -/
def State.writeReg (s : State) (r : Reg) (v : DWord) : State :=
  if s.params.r0HardwiredZero && r == 0 then s else { s with regs := s.regs.set r v }

/-- `x[d] <-{ppp} v`, the masked write `WriteMasked(d, v, ppp)` (R70). -/
def State.writeMasked (s : State) (d : Reg) (ppp : Participation) (v : DWord) : State :=
  s.writeReg d (ppp.merge (s.readReg d) v)

/-! ### The program counter -/

/-- `pc <- (pc + PC_STRIDE) mod 2^PC_WIDTH` (R25). -/
def State.advance (s : State) : State :=
  { s with pc := (s.pc + s.params.pcUnit.stride) % 2 ^ s.params.pcWidth }

/-- A taken branch: `pc <- target` (R26). A target that is no multiple of `PC_STRIDE` has no step (R44, U12); with
`PC_STRIDE` = 1 there is none. -/
def State.jump (s : State) (target : Nat) : Host.Outcome State Fault Refusal :=
  if target % s.params.pcUnit.stride = 0 then .next { s with pc := target } else .fault .misalignedTarget

/-! ### Data memory -/

/-- The byte that data memory holds at a byte address: the one the host or the latest store put there, or else the
unspecified byte that was there at reset (R34, R43, R52, D19). -/
def State.dmemByte (s : State) (a : Nat) : Byte := (s.dmem.lookup a).getD (Config.unwrittenByte a)

/-- `DMEM[a]`: the 64-bit word at a word address, its byte 0 the most significant (R40, R45). -/
def State.dmemWord (s : State) (ea : Addr) : DWord := pack 8 8 fun j => s.dmemByte (8 * ea.toNat + j)

/-- `MemRead(EA, 8)` (R41): the word, or no step where `EA >= DMEM_WORDS` (R42). -/
def State.memRead (s : State) (ea : Addr) : Except Fault DWord :=
  if ea.toNat < s.params.dmemWords then .ok (s.dmemWord ea) else .error .dmemOutOfRange

/-- `MemWrite(EA, 8, v)` (R41): all 64 bits of the word replaced, or no step where `EA >= DMEM_WORDS` (R42). -/
def State.memWrite (s : State) (ea : Addr) (v : DWord) : Except Fault State :=
  if ea.toNat < s.params.dmemWords then .ok { s with dmem := s.dmem.writeBytes (8 * ea.toNat) 8 (byteOf v) }
  else .error .dmemOutOfRange

/-! ### Instruction memory -/

/-- The cell of the image at which the word of an instruction address begins. -/
def State.imageOffset (s : State) (a : Nat) : Nat := a * s.params.pcUnit.imageBytes

/-- `Fetch(a)` (R47, R48): the 32-bit word of the image at an instruction address, none outside the domain of `IMEM`. The
domain holds multiples of `PC_STRIDE` only; an address whose four bytes are not all listed is outside it. -/
def State.fetchWord (s : State) (a : Nat) : Option Insn :=
  if a % s.params.pcUnit.stride = 0 then
    match s.imem.lookup (s.imageOffset a), s.imem.lookup (s.imageOffset a + 1),
      s.imem.lookup (s.imageOffset a + 2), s.imem.lookup (s.imageOffset a + 3) with
    | some b0, some b1, some b2, some b3 => some (insnOfBytes b0 b1 b2 b3)
    | _, _, _, _ => none
  else none

/-- The state with one instruction word placed in the image, as the host does before a run (R192). -/
def State.placeInsn (s : State) (a : Nat) (w : Insn) : State :=
  { s with imem := s.imem.writeBytes (s.imageOffset a) 4 (byteOf w) }

/-! ### The shapes of a meaning -/

/-- The end of every R-type instruction (R71): the result committed under PPP, the pc advanced. -/
def State.commit (s : State) (d : Reg) (ppp : Participation) (v : DWord) : Host.Outcome State Fault Refusal :=
  .next (s.writeMasked d ppp v).advance

/-- "Executed as No-Operation" (R162, R163): only the pc advances. -/
def State.noOperation (s : State) : Host.Outcome State Fault Refusal := .next s.advance

/-- A conditional branch to an absolute address (R160, R161, R164): no delay slot, no link. -/
def State.branchIf (s : State) (taken : Bool) (target : Nat) : Host.Outcome State Fault Refusal :=
  if taken then s.jump target else .next s.advance

end Sys2Proof.Machine
end

