-- ==== Sys2Proof/Machine/Arithmetic.lean ====
section
/-! DEFINITION. Add and subtract (41_arithmetic.md): modulo 2^size in each subfield, no carry between subfields, no flag
(R112). -/

namespace Sys2Proof.Machine

/-- VADD (R110): "We ignore the generated carry-bit for each integer addition." -/
def execVadd (rd ra rb : Reg) (ppp : Participation) (ww : Width) (s : State) : Host.Outcome State Fault Refusal :=
  s.commit rd ppp (zipLanes ww (fun a b => a + b) (s.readReg ra) (s.readReg rb))

/-- VSUB (R111): "addition of contents of rA with the 2's complement value of corresponding value of rB". -/
def execVsub (rd ra rb : Reg) (ppp : Participation) (ww : Width) (s : State) : Host.Outcome State Fault Refusal :=
  s.commit rd ppp (zipLanes ww (fun a b => a + ~~~b + 1) (s.readReg ra) (s.readReg rb))

end Sys2Proof.Machine
end

