-- ==== Sys2Proof/Machine/Control.lean ====
section
/-! DEFINITION. Branches, no-operation and illegal words (45_branch_nop.md). -/

namespace Sys2Proof.Machine

/-- VBEZ (R160): "If the contents of register rD are zero, then the branch is executed." -/
def execVbez (rd : Reg) (imm : BitVec 16) (s : State) : Host.Outcome State Fault Refusal :=
  s.branchIf (isZero (s.readReg rd)) (branchAddr imm)

/-- VBNEZ (R161): "If the contents of register rD are not zero, then the branch is executed." -/
def execVbnez (rd : Reg) (imm : BitVec 16) (s : State) : Host.Outcome State Fault Refusal :=
  s.branchIf (!isZero (s.readReg rd)) (branchAddr imm)

/-- VNOP (R162). -/
def execVnop (s : State) : Host.Outcome State Fault Refusal := s.noOperation

/-- ILLEGAL (R163): "executed as No-Operation instruction", whatever makes the word illegal, and nothing is recorded. -/
def execIllegal (_reason : IllegalWord) (s : State) : Host.Outcome State Fault Refusal := s.noOperation

end Sys2Proof.Machine
end

