-- ==== Sys2Proof/Machine/LoadStore.lean ====
section
/-! DEFINITION. Load and store (44_load_store.md): one whole 64-bit word at an absolute address (R152), no PPP and no WW
(R153). -/

namespace Sys2Proof.Machine

/-- VLD (R150): all 64 bits of rD are written. -/
def execVld (rd : Reg) (imm : BitVec 16) (s : State) : Host.Outcome State Fault Refusal :=
  match s.memRead (zextAddr imm) with
  | .ok v => .next (s.writeReg rd v).advance
  | .error f => .fault f

/-- VSD (R151): the register that source bits 6:10 name is stored whole. -/
def execVsd (rs : Reg) (imm : BitVec 16) (s : State) : Host.Outcome State Fault Refusal :=
  match s.memWrite (zextAddr imm) (s.readReg rs) with
  | .ok t => .next t.advance
  | .error f => .fault f

end Sys2Proof.Machine
end

