-- ==== Sys2Proof/Machine/Logical.lean ====
section
/-! DEFINITION. Logical and move instructions (40_logical.md): bitwise on the 64-bit registers, so WW is decoded and has no
effect on the result; PPP has its full effect. -/

namespace Sys2Proof.Machine

/-- VAND (R100). -/
def execVand (rd ra rb : Reg) (ppp : Participation) (_ww : Width) (s : State) : Host.Outcome State Fault Refusal :=
  s.commit rd ppp (s.readReg ra &&& s.readReg rb)

/-- VOR (R101). -/
def execVor (rd ra rb : Reg) (ppp : Participation) (_ww : Width) (s : State) : Host.Outcome State Fault Refusal :=
  s.commit rd ppp (s.readReg ra ||| s.readReg rb)

/-- VXOR (R102). -/
def execVxor (rd ra rb : Reg) (ppp : Participation) (_ww : Width) (s : State) : Host.Outcome State Fault Refusal :=
  s.commit rd ppp (s.readReg ra ^^^ s.readReg rb)

/-- VNOT (R103). -/
def execVnot (rd ra : Reg) (ppp : Participation) (_ww : Width) (s : State) : Host.Outcome State Fault Refusal :=
  s.commit rd ppp (~~~(s.readReg ra))

/-- VMOV (R104). -/
def execVmov (rd ra : Reg) (ppp : Participation) (_ww : Width) (s : State) : Host.Outcome State Fault Refusal :=
  s.commit rd ppp (s.readReg ra)

end Sys2Proof.Machine
end

