-- ==== Sys2Proof/Machine/Multiply.lean ====
section
/-! DEFINITION. Multiply and square (42_multiply_square.md): unsigned, results of twice the operand width. WW = 11 is an
illegal instruction for the four (R67, R124), which executes as a no-operation (R77, R163); no word decodes to such a term,
and its meaning here is the same no-operation. -/

namespace Sys2Proof.Machine

/-- The exact product of two unsigned subfields, twice as wide (R125). -/
def wideProduct {size : Nat} (a b : BitVec size) : BitVec (2 * size) :=
  a.setWidth (2 * size) * b.setWidth (2 * size)

/-- The 64-bit vector of products of R124: result `m` is the product of subfields `2 * m + odd` of the sources, where
`odd` is 0 for the even instructions and 1 for the odd ones. -/
def products (ww : Width) (odd : Nat) (a b : DWord) : DWord :=
  pack (2 * ww.size) ww.pairs fun m =>
    wideProduct (subfield ww.size a (2 * m + odd)) (subfield ww.size b (2 * m + odd))

/-- A multiply or square whose 64-bit result is `v`; with WW = 11 it is a no-operation (R67, R77). -/
def State.commitProducts (s : State) (d : Reg) (ppp : Participation) (ww : Width) (v : DWord) :
    Host.Outcome State Fault Refusal :=
  if ww.multiplies then s.commit d ppp v else s.noOperation

/-- VMULEU (R120). -/
def execVmuleu (rd ra rb : Reg) (ppp : Participation) (ww : Width) (s : State) : Host.Outcome State Fault Refusal :=
  s.commitProducts rd ppp ww (products ww 0 (s.readReg ra) (s.readReg rb))

/-- VMULOU (R121). -/
def execVmulou (rd ra rb : Reg) (ppp : Participation) (ww : Width) (s : State) : Host.Outcome State Fault Refusal :=
  s.commitProducts rd ppp ww (products ww 1 (s.readReg ra) (s.readReg rb))

/-- VSQEU (R122): no register is read through the rB field. -/
def execVsqeu (rd ra : Reg) (ppp : Participation) (ww : Width) (s : State) : Host.Outcome State Fault Refusal :=
  s.commitProducts rd ppp ww (products ww 0 (s.readReg ra) (s.readReg ra))

/-- VSQOU (R123): no register is read through the rB field. -/
def execVsqou (rd ra : Reg) (ppp : Participation) (ww : Width) (s : State) : Host.Outcome State Fault Refusal :=
  s.commitProducts rd ppp ww (products ww 1 (s.readReg ra) (s.readReg ra))

end Sys2Proof.Machine
end

