-- ==== Sys2Proof/Machine/Shift.lean ====
section
/-! DEFINITION. Rotate by half and shifts (43_rotate_shift.md). Every shift acts inside its subfield and its amount is below
the subfield's width (R139). -/

namespace Sys2Proof.Machine

/-- VRTTH (R130). -/
def execVrtth (rd ra : Reg) (ppp : Participation) (ww : Width) (s : State) : Host.Outcome State Fault Refusal :=
  s.commit rd ppp (mapLanes ww (fun a => swapHalves a) (s.readReg ra))

/-- VSLL (R133). -/
def execVsll (rd ra rb : Reg) (ppp : Participation) (ww : Width) (s : State) : Host.Outcome State Fault Refusal :=
  s.commit rd ppp (zipLanes ww (fun a b => a <<< laneAmount ww b) (s.readReg ra) (s.readReg rb))

/-- VSLLI (R134). -/
def execVslli (rd ra : Reg) (sh : BitVec 5) (ppp : Participation) (ww : Width) (s : State) :
    Host.Outcome State Fault Refusal :=
  s.commit rd ppp (mapLanes ww (fun a => a <<< immAmount ww sh) (s.readReg ra))

/-- VSRL (R135). -/
def execVsrl (rd ra rb : Reg) (ppp : Participation) (ww : Width) (s : State) : Host.Outcome State Fault Refusal :=
  s.commit rd ppp (zipLanes ww (fun a b => a >>> laneAmount ww b) (s.readReg ra) (s.readReg rb))

/-- VSRLI (R136). -/
def execVsrli (rd ra : Reg) (sh : BitVec 5) (ppp : Participation) (ww : Width) (s : State) :
    Host.Outcome State Fault Refusal :=
  s.commit rd ppp (mapLanes ww (fun a => a >>> immAmount ww sh) (s.readReg ra))

/-- VSRA (R137). -/
def execVsra (rd ra rb : Reg) (ppp : Participation) (ww : Width) (s : State) : Host.Outcome State Fault Refusal :=
  s.commit rd ppp (zipLanes ww (fun a b => shiftRightArith a (laneAmount ww b)) (s.readReg ra) (s.readReg rb))

/-- VSRAI (R138). -/
def execVsrai (rd ra : Reg) (sh : BitVec 5) (ppp : Participation) (ww : Width) (s : State) :
    Host.Outcome State Fault Refusal :=
  s.commit rd ppp (mapLanes ww (fun a => shiftRightArith a (immAmount ww sh)) (s.readReg ra))

end Sys2Proof.Machine
end

