-- ==== Sys2Proof/Machine/Dispatch.lean ====
section
/-! DEFINITION. The meaning of each instruction, one arm per constructor. -/

namespace Sys2Proof.Machine

def exec (i : Instr) (s : State) : Host.Outcome State Fault Refusal :=
  match i with
  | .vand rd ra rb ppp ww => Sys2Proof.Machine.execVand rd ra rb ppp ww s
  | .vor rd ra rb ppp ww => Sys2Proof.Machine.execVor rd ra rb ppp ww s
  | .vxor rd ra rb ppp ww => Sys2Proof.Machine.execVxor rd ra rb ppp ww s
  | .vnot rd ra ppp ww => Sys2Proof.Machine.execVnot rd ra ppp ww s
  | .vmov rd ra ppp ww => Sys2Proof.Machine.execVmov rd ra ppp ww s
  | .vadd rd ra rb ppp ww => Sys2Proof.Machine.execVadd rd ra rb ppp ww s
  | .vsub rd ra rb ppp ww => Sys2Proof.Machine.execVsub rd ra rb ppp ww s
  | .vmuleu rd ra rb ppp ww => Sys2Proof.Machine.execVmuleu rd ra rb ppp ww s
  | .vmulou rd ra rb ppp ww => Sys2Proof.Machine.execVmulou rd ra rb ppp ww s
  | .vsqeu rd ra ppp ww => Sys2Proof.Machine.execVsqeu rd ra ppp ww s
  | .vsqou rd ra ppp ww => Sys2Proof.Machine.execVsqou rd ra ppp ww s
  | .vrtth rd ra ppp ww => Sys2Proof.Machine.execVrtth rd ra ppp ww s
  | .vsll rd ra rb ppp ww => Sys2Proof.Machine.execVsll rd ra rb ppp ww s
  | .vslli rd ra sh ppp ww => Sys2Proof.Machine.execVslli rd ra sh ppp ww s
  | .vsrl rd ra rb ppp ww => Sys2Proof.Machine.execVsrl rd ra rb ppp ww s
  | .vsrli rd ra sh ppp ww => Sys2Proof.Machine.execVsrli rd ra sh ppp ww s
  | .vsra rd ra rb ppp ww => Sys2Proof.Machine.execVsra rd ra rb ppp ww s
  | .vsrai rd ra sh ppp ww => Sys2Proof.Machine.execVsrai rd ra sh ppp ww s
  | .vld rd imm => Sys2Proof.Machine.execVld rd imm s
  | .vsd rs imm => Sys2Proof.Machine.execVsd rs imm s
  | .vbez rd imm => Sys2Proof.Machine.execVbez rd imm s
  | .vbnez rd imm => Sys2Proof.Machine.execVbnez rd imm s
  | .vnop => Sys2Proof.Machine.execVnop s

end Sys2Proof.Machine
end

