-- ==== Sys2Proof/Machine/Step.lean ====
section
/-! DEFINITION. One step of the machine (R25): fetch at the pc, decode, perform the instruction's rule. -/

namespace Sys2Proof.Machine

/-- One step. Where the pc is not in the domain of `IMEM` the run has ended and there is no step (R48, R194). A word that
decodes to no instruction executes as a no-operation (R77, R163). -/
def step (s : State) : Host.Outcome State Fault Refusal :=
  match s.fetchWord s.pc with
  | none => .fault .runEnded
  | some w =>
    match decode w with
    | .ok i => exec i s
    | .error reason => execIllegal reason s

/-- The state with the instruction whose table bits are `w` placed where the next step fetches (R192): at the pc, the bits
from `nbits` up being 0. -/
def State.withFetchWord (s : State) (nbits w : Nat) : State := s.placeInsn s.pc (BitVec.ofNat 32 (w % 2 ^ nbits))

end Sys2Proof.Machine
end

