-- ==== Sys2Proof/Machine/Assembly.lean ====
section
/-! DEFINITION. Assembler syntax (R79 to R81): the text of an instruction, and the instruction of a text. It affects no
encoding and no step. -/

namespace Sys2Proof

/-! ### Mnemonics -/

/-- The first letter of the suffix (R68); o for PPP = 100 (D17, 91_not_in_source.md N4). -/
def Participation.letter : Participation → String
  | .all => "a"
  | .upper => "u"
  | .lower => "d"
  | .even => "e"
  | .odd => "o"

/-- The second letter of the suffix (R66). -/
def Width.letter : Width → String
  | .b => "b"
  | .h => "h"
  | .w => "w"
  | .d => "d"

/-- The suffix `xy` of an R-type mnemonic (R79). -/
def suffix (ppp : Participation) (ww : Width) : String := ppp.letter ++ ww.letter

/-- An operand as it is written (R81): a register r0 to r31, a decimal number, or a hexadecimal number with prefix 0x. -/
inductive AsmOperand where
  | reg (r : Reg)
  | dec (n : Nat)
  | hex (n : Nat)
  deriving DecidableEq, Repr

/-- One line of assembly: a mnemonic and its operands. -/
structure AsmLine where
  mnemonic : String
  operands : List AsmOperand
  deriving DecidableEq, Repr

/-- An instruction as it is written (R80). The branches are written with the table's names (90_conflicts.md C3), addresses
in decimal. -/
def Instr.asm : Instr → AsmLine
  | .vand rd ra rb ppp ww => ⟨"vand" ++ suffix ppp ww, [.reg rd, .reg ra, .reg rb]⟩
  | .vor rd ra rb ppp ww => ⟨"vor" ++ suffix ppp ww, [.reg rd, .reg ra, .reg rb]⟩
  | .vxor rd ra rb ppp ww => ⟨"vxor" ++ suffix ppp ww, [.reg rd, .reg ra, .reg rb]⟩
  | .vnot rd ra ppp ww => ⟨"vnot" ++ suffix ppp ww, [.reg rd, .reg ra]⟩
  | .vmov rd ra ppp ww => ⟨"vmov" ++ suffix ppp ww, [.reg rd, .reg ra]⟩
  | .vadd rd ra rb ppp ww => ⟨"vadd" ++ suffix ppp ww, [.reg rd, .reg ra, .reg rb]⟩
  | .vsub rd ra rb ppp ww => ⟨"vsub" ++ suffix ppp ww, [.reg rd, .reg ra, .reg rb]⟩
  | .vmuleu rd ra rb ppp ww => ⟨"vmuleu" ++ suffix ppp ww, [.reg rd, .reg ra, .reg rb]⟩
  | .vmulou rd ra rb ppp ww => ⟨"vmulou" ++ suffix ppp ww, [.reg rd, .reg ra, .reg rb]⟩
  | .vsqeu rd ra ppp ww => ⟨"vsqeu" ++ suffix ppp ww, [.reg rd, .reg ra]⟩
  | .vsqou rd ra ppp ww => ⟨"vsqou" ++ suffix ppp ww, [.reg rd, .reg ra]⟩
  | .vrtth rd ra ppp ww => ⟨"vrtth" ++ suffix ppp ww, [.reg rd, .reg ra]⟩
  | .vsll rd ra rb ppp ww => ⟨"vsll" ++ suffix ppp ww, [.reg rd, .reg ra, .reg rb]⟩
  | .vslli rd ra sh ppp ww => ⟨"vslli" ++ suffix ppp ww, [.reg rd, .reg ra, .dec sh.toNat]⟩
  | .vsrl rd ra rb ppp ww => ⟨"vsrl" ++ suffix ppp ww, [.reg rd, .reg ra, .reg rb]⟩
  | .vsrli rd ra sh ppp ww => ⟨"vsrli" ++ suffix ppp ww, [.reg rd, .reg ra, .dec sh.toNat]⟩
  | .vsra rd ra rb ppp ww => ⟨"vsra" ++ suffix ppp ww, [.reg rd, .reg ra, .reg rb]⟩
  | .vsrai rd ra sh ppp ww => ⟨"vsrai" ++ suffix ppp ww, [.reg rd, .reg ra, .dec sh.toNat]⟩
  | .vld rd imm => ⟨"vld", [.reg rd, .dec imm.toNat]⟩
  | .vsd rs imm => ⟨"vsd", [.reg rs, .dec imm.toNat]⟩
  | .vbez rd imm => ⟨"vbez", [.reg rd, .dec imm.toNat]⟩
  | .vbnez rd imm => ⟨"vbnez", [.reg rd, .dec imm.toNat]⟩
  | .vnop => ⟨"vnop", []⟩

/-! ### The assembler -/

/-- Every pair of control fields. -/
def allSuffixes : List (Participation × Width) :=
  [.all, .upper, .lower, .even, .odd].flatMap fun ppp => [.b, .h, .w, .d].map fun ww => (ppp, ww)

/-- The control fields of an R-type mnemonic with a given base name. -/
def suffixOf (base mnemonic : String) : Option (Participation × Width) :=
  allSuffixes.find? fun x => base ++ suffix x.1 x.2 == mnemonic

/-- The first entry of a table of base names that the mnemonic spells, with its control fields. -/
def spelled {α : Type} : List (String × α) → String → Option (α × Participation × Width)
  | [], _ => none
  | (base, x) :: rest, mnemonic =>
    match suffixOf base mnemonic with
    | some (ppp, ww) => some (x, ppp, ww)
    | none => spelled rest mnemonic

/-- The base names with operands rD, rA, rB. -/
def threeRegisters : List (String × (Reg → Reg → Reg → Participation → Width → Instr)) :=
  [("vand", .vand), ("vor", .vor), ("vxor", .vxor), ("vadd", .vadd), ("vsub", .vsub), ("vmuleu", .vmuleu),
   ("vmulou", .vmulou), ("vsll", .vsll), ("vsrl", .vsrl), ("vsra", .vsra)]

/-- The base names with operands rD, rA. -/
def twoRegisters : List (String × (Reg → Reg → Participation → Width → Instr)) :=
  [("vnot", .vnot), ("vmov", .vmov), ("vsqeu", .vsqeu), ("vsqou", .vsqou), ("vrtth", .vrtth)]

/-- The base names with operands rD, rA, shift_amount (90_conflicts.md C7). -/
def shiftImmediates : List (String × (Reg → Reg → BitVec 5 → Participation → Width → Instr)) :=
  [("vslli", .vslli), ("vsrli", .vsrli), ("vsrai", .vsrai)]

/-- The mnemonics with operands register, address; both spellings of the branches (90_conflicts.md C3). -/
def addressed : List (String × (Reg → BitVec 16 → Instr)) :=
  [("vld", .vld), ("vsd", .vsd), ("vbez", .vbez), ("vbeq", .vbez), ("vbnez", .vbnez), ("vbneq", .vbnez)]

/-- An instruction with a register and an address in 0..65535. -/
def assembleAddressed (mnemonic : String) (r : Reg) (n : Nat) : Option Instr :=
  match addressed.find? (·.1 == mnemonic) with
  | some (_, make) => if n < 65536 then some (make r (BitVec.ofNat 16 n)) else none
  | none => none

/-- The instruction of a line (R80, R81): vmuleu, vmulou, vsqeu and vsqou take no letter d for the width. The source's slip
"vbnop" is not accepted (90_conflicts.md C5). -/
def assemble (l : AsmLine) : Option Instr :=
  let found : Option Instr :=
    match l.operands with
    | [.reg rd, .reg ra, .reg rb] => (spelled threeRegisters l.mnemonic).map fun x => x.1 rd ra rb x.2.1 x.2.2
    | [.reg rd, .reg ra] => (spelled twoRegisters l.mnemonic).map fun x => x.1 rd ra x.2.1 x.2.2
    | [.reg rd, .reg ra, .dec n] =>
      if n < 32 then (spelled shiftImmediates l.mnemonic).map fun x => x.1 rd ra (BitVec.ofNat 5 n) x.2.1 x.2.2
      else none
    | [.reg r, .dec n] => assembleAddressed l.mnemonic r n
    | [.reg r, .hex n] => assembleAddressed l.mnemonic r n
    | [] => if l.mnemonic == "vnop" then some .vnop else none
    | _ => none
  match found with
  | some i => if WellFormed i then some i else none
  | none => none

/-! ### Text -/

/-- A decimal digit's value. -/
def digitOf (c : Char) : Option Nat :=
  if '0' ≤ c ∧ c ≤ '9' then some (c.toNat - '0'.toNat) else none

/-- A hexadecimal digit's value. -/
def hexDigitOf (c : Char) : Option Nat :=
  if '0' ≤ c ∧ c ≤ '9' then some (c.toNat - '0'.toNat)
  else if 'a' ≤ c ∧ c ≤ 'f' then some (c.toNat - 'a'.toNat + 10)
  else if 'A' ≤ c ∧ c ≤ 'F' then some (c.toNat - 'A'.toNat + 10)
  else none

/-- The number that the digits write, most significant first, continuing from `acc`. -/
def numberOf (digit : Char → Option Nat) (base : Nat) (acc : Nat) : List Char → Option Nat
  | [] => some acc
  | c :: cs =>
    match digit c with
    | some x => numberOf digit base (base * acc + x) cs
    | none => none

/-- A non-empty number. -/
def number (digit : Char → Option Nat) (base : Nat) : List Char → Option Nat
  | [] => none
  | c :: cs => numberOf digit base 0 (c :: cs)

/-- An operand's text (R81). -/
def readOperand : List Char → Option AsmOperand
  | 'r' :: ds =>
    match number digitOf 10 ds with
    | some n => if h : n < 32 then some (.reg ⟨n, h⟩) else none
    | none => none
  | '0' :: 'x' :: ds => (number hexDigitOf 16 ds).map .hex
  | ds => (number digitOf 10 ds).map .dec

/-- The text without blanks at either end. -/
def trimBlanks (cs : List Char) : List Char :=
  ((cs.dropWhile (· == ' ')).reverse.dropWhile (· == ' ')).reverse

/-- The pieces of a text between commas. -/
def splitCommas : List Char → List (List Char)
  | [] => [[]]
  | ',' :: cs => [] :: splitCommas cs
  | c :: cs =>
    match splitCommas cs with
    | p :: ps => (c :: p) :: ps
    | [] => [[c]]

/-- The operands of a line, separated by commas; none of them where the text is blank. -/
def readOperands (cs : List Char) : Option (List AsmOperand) :=
  if trimBlanks cs = [] then some [] else (splitCommas cs).mapM fun p => readOperand (trimBlanks p)

/-- What one line of assembly text says (R81): nothing where it is blank or a comment from `#` on, else an instruction, or
none where it is not assembly. -/
def assembleText (line : String) : Option (Option Instr) :=
  let cs := trimBlanks (line.toList.takeWhile (· != '#'))
  if cs = [] then some none
  else
    match readOperands (cs.dropWhile (· != ' ')) with
    | some ops => (assemble ⟨String.ofList (cs.takeWhile (· != ' ')), ops⟩).map some
    | none => none

end Sys2Proof
end

