-- ==== Sys2Proof/Machine/Footprint.lean ====
section
/-! DEFINITION. Which registers and which data-memory words an instruction reads and writes: the table of R22, and R43. -/

namespace Sys2Proof

/-- The registers an R-type instruction reads: its sources, and rD unless every byte of it is written, because a masked
write keeps the bytes that do not participate (R22, D19). -/
def maskedReads (ppp : Participation) (rd : Reg) (sources : List Reg) : List Reg :=
  if ppp = .all then sources else rd :: sources

/-- The registers an instruction reads (R22). A multiply or square with WW = 11 is a no-operation and reads none (R67). -/
def Instr.reads : Instr → List Reg
  | .vand rd ra rb ppp _ | .vor rd ra rb ppp _ | .vxor rd ra rb ppp _ => maskedReads ppp rd [ra, rb]
  | .vadd rd ra rb ppp _ | .vsub rd ra rb ppp _ => maskedReads ppp rd [ra, rb]
  | .vsll rd ra rb ppp _ | .vsrl rd ra rb ppp _ | .vsra rd ra rb ppp _ => maskedReads ppp rd [ra, rb]
  | .vmuleu rd ra rb ppp ww | .vmulou rd ra rb ppp ww => if ww.multiplies then maskedReads ppp rd [ra, rb] else []
  | .vnot rd ra ppp _ | .vmov rd ra ppp _ | .vrtth rd ra ppp _ => maskedReads ppp rd [ra]
  | .vslli rd ra _ ppp _ | .vsrli rd ra _ ppp _ | .vsrai rd ra _ ppp _ => maskedReads ppp rd [ra]
  | .vsqeu rd ra ppp ww | .vsqou rd ra ppp ww => if ww.multiplies then maskedReads ppp rd [ra] else []
  | .vsd rs _ => [rs]
  | .vbez rd _ | .vbnez rd _ => [rd]
  | .vld _ _ | .vnop => []

/-- The register an instruction writes, if any (R22). -/
def Instr.writes : Instr → Option Reg
  | .vand rd .. | .vor rd .. | .vxor rd .. | .vnot rd .. | .vmov rd .. => some rd
  | .vadd rd .. | .vsub rd .. => some rd
  | .vmuleu rd _ _ _ ww | .vmulou rd _ _ _ ww => if ww.multiplies then some rd else none
  | .vsqeu rd _ _ ww | .vsqou rd _ _ ww => if ww.multiplies then some rd else none
  | .vrtth rd .. | .vsll rd .. | .vslli rd .. | .vsrl rd .. | .vsrli rd .. | .vsra rd .. | .vsrai rd .. => some rd
  | .vld rd _ => some rd
  | .vsd .. | .vbez .. | .vbnez .. | .vnop => none

/-- The data-memory word an instruction loads, if any: only VLD loads (R43). -/
def Instr.loads : Instr → Option Addr
  | .vld _ imm => some (zextAddr imm)
  | _ => none

/-- The data-memory word an instruction stores, if any: only VSD stores (R43). -/
def Instr.stores : Instr → Option Addr
  | .vsd _ imm => some (zextAddr imm)
  | _ => none

/-- The address a branch goes to when taken; none for every other instruction (R164). -/
def Instr.branchTarget : Instr → Option Nat
  | .vbez _ imm | .vbnez _ imm => some (branchAddr imm)
  | _ => none

/-- The width at which an R-type instruction works subfield by subfield; none for the multiplies and squares, whose results
lie over two subfields (R124), and for what is not R-type. -/
def Instr.laneWidth : Instr → Option Width
  | .vand _ _ _ _ ww | .vor _ _ _ _ ww | .vxor _ _ _ _ ww | .vnot _ _ _ ww | .vmov _ _ _ ww => some ww
  | .vadd _ _ _ _ ww | .vsub _ _ _ _ ww => some ww
  | .vrtth _ _ _ ww | .vsll _ _ _ _ ww | .vslli _ _ _ _ ww | .vsrl _ _ _ _ ww | .vsrli _ _ _ _ ww => some ww
  | .vsra _ _ _ _ ww | .vsrai _ _ _ _ ww => some ww
  | .vmuleu .. | .vmulou .. | .vsqeu .. | .vsqou .. => none
  | .vld .. | .vsd .. | .vbez .. | .vbnez .. | .vnop => none

end Sys2Proof
end

