-- ==== Sys2Proof/Machine/Loader.lean ====
section
/-! DEFINITION. What the host does before a run and after it (R192, R195): images of a program and of initial data, the
machine booted with them, and the state in which a run ends (R194). No step takes part in any of it. -/

namespace Sys2Proof.Machine

/-- An image given as bytes, the first byte at the cell `base` (R46: byte 0 of a word is its most significant byte). -/
def imageOfBytes (base : Nat) : List Byte → Memory
  | [] => []
  | b :: bs => (base, b) :: imageOfBytes (base + 1) bs

/-- The bytes of a program, four for each instruction, most significant first (R46). -/
def programBytes : List Insn → List Byte
  | [] => []
  | w :: ws => byteOf w 0 :: byteOf w 1 :: byteOf w 2 :: byteOf w 3 :: programBytes ws

/-- `IMEM` for a program of n instructions loaded at address 0: addresses 0, `PC_STRIDE`, ..., `(n-1) * PC_STRIDE` (R48). In
either unit of the pc the cells are those of the bytes one after the other, see `State.imageOffset`. -/
def programImage (program : List Insn) : Memory := imageOfBytes 0 (programBytes program)

/-- `DMEM_INIT` given as a list of word addresses and values (R34, R192); an earlier pair overrides a later one. -/
def dataImage : List (Addr × DWord) → Memory
  | [] => []
  | (a, v) :: rest => (dataImage rest).writeBytes (8 * a.toNat) 8 (byteOf v)

/-- Reset with a program and initial data in place (R190 to R192). -/
def State.boot (p : Config.Params) (program : List Insn) (data : List (Addr × DWord)) : State :=
  State.resetWith p (programImage program) (dataImage data)

/-- "The run has ended when pc is not in the domain of IMEM" (R194). -/
def State.ended (s : State) : Bool := (s.fetchWord s.pc).isNone

/-- The state after at most `n` steps, the one in which the run ended if it ended before (R194): what the host reads, its
data memory first of all (R195). -/
def State.runFor : Nat → State → State
  | 0, s => s
  | n + 1, s =>
    match step s with
    | .next t => State.runFor n t
    | .fault _ => s
    | .refused _ => s

end Sys2Proof.Machine
end

