-- ==== Sys2Proof/Safety.lean ====
section
/-! DEFINITION. The terms of claims: the invariant of the machine, what a commit of a result is and what it leaves alone,
and which programs and runs a stricter model would refuse (93_implementation_defined.md). -/

namespace Sys2Proof.Safety

open Sys2Proof.Machine

/-- Where the pc goes unless a branch is taken: `(pc + PC_STRIDE) mod 2^PC_WIDTH` (R25). -/
def pcAfter (s : State) : Nat := (s.pc + s.params.pcUnit.stride) % 2 ^ s.params.pcWidth

/-- What every step keeps: both memories in their canonical form, data memory inside `DMEM_WORDS` (R42), the pc a number of
`PC_WIDTH` bits, at least 16 (R23, D2), and a multiple of `PC_STRIDE` (R44), and a hardwired register 0 holding 0 (R21). -/
structure Inv (s : State) : Prop where
  dmem_wf : s.dmem.wf = true
  imem_wf : s.imem.wf = true
  dmem_range : ∀ c ∈ s.dmem, c.1 < 8 * s.params.dmemWords
  pc_width : 16 ≤ s.params.pcWidth
  pc_range : s.pc < 2 ^ s.params.pcWidth
  pc_aligned : s.pc % s.params.pcUnit.stride = 0
  zero_register : s.params.r0HardwiredZero = true → s.regs[(0 : Reg)] = 0

/-! ### Frames -/

/-- Every byte of data memory reads as before, and so does the program; the parameters are the same. -/
def MemoryKept (s t : State) : Prop :=
  (∀ a, t.dmemByte a = s.dmemByte a) ∧ (∀ a, t.fetchWord a = s.fetchWord a) ∧ t.imem = s.imem ∧ t.params = s.params

/-- Every general register but `d` reads as before. -/
def OthersKept (s t : State) (d : Reg) : Prop := ∀ r, r ≠ d → t.readReg r = s.readReg r

/-- Every general register reads as before. -/
def RegistersKept (s t : State) : Prop := ∀ r, t.readReg r = s.readReg r

/-- Register 0 where it is hardwired: writes to it are dropped (R21). -/
def Discards (s : State) (d : Reg) : Prop := s.params.r0HardwiredZero = true ∧ d = 0

/-- `t` is `s` after the 64-bit result `v` has been committed to `d` under `ppp` (R70, R71): each byte of `d` that
participates is that byte of `v` and each other byte is as before, a hardwired register 0 stays 0; no other register and no
byte of memory changes; the pc has advanced. -/
def Commits (s t : State) (d : Reg) (ppp : Participation) (v : DWord) : Prop :=
  (Discards s d → t.readReg d = 0) ∧
  (¬ Discards s d → ∀ j < 8, subfield 8 (t.readReg d) j =
    if ppp.part j then subfield 8 v j else subfield 8 (s.readReg d) j) ∧
  OthersKept s t d ∧ MemoryKept s t ∧ t.pc = pcAfter s

/-- Nothing but the pc has changed, and the pc has advanced (R162, R163). -/
def OnlyAdvances (s t : State) : Prop :=
  RegistersKept s t ∧ MemoryKept s t ∧ t.pc = pcAfter s

/-! ### The width of the pc -/

/-- The same machine with another `PC_WIDTH`. -/
def withPcWidth (s : State) (width : Nat) : State := { s with params := { s.params with pcWidth := width } }

/-! ### Words as integers -/

/-- "insn = (0x2A << 26) | (rD << 21) | (rA << 16) | (rB << 11) | (PPP << 8) | (WW << 6) | function" (R61). -/
def wordR (rd ra : Reg) (rb : Nat) (ppp : Participation) (ww : Width) (function : Nat) : Insn :=
  BitVec.ofNat 32 ((0x2A <<< 26) ||| (rd.val <<< 21) ||| (ra.val <<< 16) ||| (rb <<< 11) |||
    (ppp.code.toNat <<< 8) ||| (ww.code.toNat <<< 6) ||| function)

/-- "insn = (opcode << 26) | (rD << 21) | imm16" (R62). -/
def wordM (opcode : Nat) (r : Reg) (imm : BitVec 16) : Insn :=
  BitVec.ofNat 32 ((opcode <<< 26) ||| (r.val <<< 21) ||| imm.toNat)

/-! ### Illegal words -/

/-- "This program contains no illegal word" (R163): what a model that refuses U1, U2 and U4 asks of a program. -/
def legalProgram (program : List Insn) : Bool := program.all fun w => (decode w).isOk

/-- The combinations of PPP and WW in which a result subfield is neither wholly written nor wholly kept (R69, U6), for a
result subfield of `size` bits. -/
def straddles (ppp : Participation) (size : Nat) : Bool :=
  match ppp with
  | .all => false
  | .upper | .lower => decide (size = 64)
  | .even | .odd => decide (8 < size)

/-! ### Hazards (R197, U13): the runs that a model refuses for an implementation without interlocks -/

/-- The newer instruction reads a register, or loads a word, that the older one writes. -/
def clashes (older newer : Instr) : Bool :=
  (newer.reads.any fun r => older.writes == some r) || (newer.loads.any fun a => older.stores == some a)

/-- The `d` instruction slots after `a` in program order hold VNOPs, so far as the program goes. -/
def slotsPadded (s : State) (a : Nat) : Nat → Bool
  | 0 => true
  | d + 1 =>
    slotsPadded s a d &&
      match s.fetchWord ((a + s.params.pcUnit.stride * (d + 1)) % 2 ^ s.params.pcWidth) with
      | none => true
      | some w => w == 0xF0000000

/-- The first `n` steps of the run from `s` respect `HAZARD_DISTANCE`: no instruction clashes with one of the
`HAZARD_DISTANCE` instructions executed before it (`window`, the latest first), and as many slots after each executed
branch hold VNOPs. An executed illegal word touches nothing, so it clashes with nothing, as VNOP does. -/
def hazardFree : Nat → List Instr → State → Bool
  | 0, _, _ => true
  | n + 1, window, s =>
    match s.fetchWord s.pc with
    | none => true
    | some w =>
      let i := (decode w).toOption.getD .vnop
      (window.all fun o => !clashes o i) &&
      (i.branchTarget.isNone || slotsPadded s s.pc s.params.hazardDistance) &&
      match step s with
      | .next t => hazardFree n ((i :: window).take s.params.hazardDistance) t
      | .fault _ => true
      | .refused _ => true

end Sys2Proof.Safety
end

