-- ==== Sys2Proof/Certificates/Slice0/Obligations.lean ====
section
/-! DEFINITION. The statements for the provers. Three conventions are the spec's own decisions and are named once here: bytes,
not subfields, participate under PPP (R68, R70, decision D8, assumption 11); an instruction that does not jump advances the
pc by `PC_STRIDE` modulo `2^PC_WIDTH` (decisions D3, D2, D20, parameters here, assumptions 5, 6); register 0 is ordinary unless `R0_HARDWIRED_ZERO`, whose
default is false (decision D1, a parameter here, assumption 5). The predicates of frames and commits stand in
Sys2Proof/Safety.lean. -/

open Sys2Proof
open Sys2Proof.Machine
open Sys2Proof.Safety

/-! ### Encoding -/

/-- R75, R76: every instruction of the table decodes from its word, with every operand at every value. -/
def Obligations.DecodeOfEncodeIsTheInstruction : Prop :=
  ∀ i : Instr, WellFormed i = true → decode (encode i) = .ok i

/-- R75, R76: no two words decode to one instruction, so every bit of a legal word is fixed or is an operand's. That the
fields shown as zero are checked is the spec's decision D11 (assumption 10). -/
def Obligations.EncodeOfDecodeIsTheWord : Prop :=
  ∀ (w : Insn) (i : Instr), decode w = .ok i → WellFormed i = true ∧ encode i = w

/-- R61: the word of each of the 18 R-type instructions as an integer, with the function codes of R75. -/
def Obligations.FormatRWordIsTheInteger : Prop :=
  ∀ (rd ra rb : Reg) (sh : BitVec 5) (p : Participation) (ww : Width),
    encode (.vand rd ra rb p ww) = wordR rd ra rb.val p ww 0b000001 ∧
    encode (.vor rd ra rb p ww) = wordR rd ra rb.val p ww 0b000010 ∧
    encode (.vxor rd ra rb p ww) = wordR rd ra rb.val p ww 0b000011 ∧
    encode (.vnot rd ra p ww) = wordR rd ra 0 p ww 0b000100 ∧
    encode (.vmov rd ra p ww) = wordR rd ra 0 p ww 0b000101 ∧
    encode (.vadd rd ra rb p ww) = wordR rd ra rb.val p ww 0b000110 ∧
    encode (.vsub rd ra rb p ww) = wordR rd ra rb.val p ww 0b000111 ∧
    encode (.vmuleu rd ra rb p ww) = wordR rd ra rb.val p ww 0b001000 ∧
    encode (.vmulou rd ra rb p ww) = wordR rd ra rb.val p ww 0b001001 ∧
    encode (.vsqeu rd ra p ww) = wordR rd ra 0 p ww 0b001010 ∧
    encode (.vsqou rd ra p ww) = wordR rd ra 0 p ww 0b001011 ∧
    encode (.vrtth rd ra p ww) = wordR rd ra 0 p ww 0b001100 ∧
    encode (.vsll rd ra rb p ww) = wordR rd ra rb.val p ww 0b001101 ∧
    encode (.vslli rd ra sh p ww) = wordR rd ra sh.toNat p ww 0b001110 ∧
    encode (.vsrl rd ra rb p ww) = wordR rd ra rb.val p ww 0b001111 ∧
    encode (.vsrli rd ra sh p ww) = wordR rd ra sh.toNat p ww 0b010000 ∧
    encode (.vsra rd ra rb p ww) = wordR rd ra rb.val p ww 0b010001 ∧
    encode (.vsrai rd ra sh p ww) = wordR rd ra sh.toNat p ww 0b010010

/-- R62: the word of the four instructions of the M layout as an integer. -/
def Obligations.FormatMWordIsTheInteger : Prop :=
  ∀ (r : Reg) (imm : BitVec 16),
    encode (.vld r imm) = wordM 0b100000 r imm ∧
    encode (.vsd r imm) = wordM 0b100001 r imm ∧
    encode (.vbez r imm) = wordM 0b100010 r imm ∧
    encode (.vbnez r imm) = wordM 0b100011 r imm

/-- R63: VNOP is the one word 0xF0000000. -/
def Obligations.VnopIsOneWord : Prop :=
  encode .vnop = 0xF0000000 ∧ ∀ w : Insn, decode w = .ok .vnop ↔ w = 0xF0000000

/-- R75: a word of each format, written out bit by bit from its figure, decodes to its instruction. -/
def Obligations.WrittenOutWordsDecode : Prop :=
  decode 0b101010_00001_00010_00011_000_10_000001 = .ok (.vand 1 2 3 .all .w) ∧
  decode 0b101010_00001_00010_00011_001_10_000110 = .ok (.vadd 1 2 3 .upper .w) ∧
  decode 0b101010_00001_00010_00000_010_10_001010 = .ok (.vsqeu 1 2 .lower .w) ∧
  decode 0b101010_11111_11110_11111_100_11_001110 = .ok (.vslli 31 30 31 .odd .d) ∧
  decode 0b101010_00000_00000_00000_011_00_010010 = .ok (.vsrai 0 0 0 .even .b) ∧
  decode 0b100000_11111_00000_1111111111111111 = .ok (.vld 31 0xFFFF) ∧
  decode 0b100001_00001_00000_0000000000010000 = .ok (.vsd 1 0x10) ∧
  decode 0b100010_00001_00000_0000000000000101 = .ok (.vbez 1 5)

/-- R76, R77: which words are illegal. The reserved PPP values, WW = 11 on multiply and square and the checked zero fields
are the spec's decisions D9, D10, D11 (assumption 10). -/
def Obligations.IllegalWordsAreThoseListed : Prop :=
  ∀ w : Insn, (∃ reason, decode w = .error reason) ↔
    (fieldOpcode w ∉ [0b100000, 0b100001, 0b100010, 0b100011, 0b101010, 0b111100]) ∨
    (fieldOpcode w = 0b111100 ∧ w ≠ 0xF0000000) ∨
    (fieldOpcode w ∈ [0b100000, 0b100001, 0b100010, 0b100011] ∧ fieldRa w ≠ 0) ∨
    (fieldOpcode w = 0b101010 ∧
      (fieldFunction w = 0 ∨ 18 < (fieldFunction w).toNat ∨ 4 < (fieldPpp w).toNat ∨
        (fieldFunction w ∈ [4, 5, 10, 11, 12] ∧ fieldRb w ≠ 0) ∨
        (fieldFunction w ∈ [8, 9, 10, 11] ∧ fieldWw w = 0b11)))

/-- R75: a word that decodes to an instruction has the bits of that instruction's row under the row's mask. -/
def Obligations.DecodedWordMatchesItsRow : Prop :=
  ∀ (w : Insn) (i : Instr), decode w = .ok i → w &&& i.row.mask = i.row.bits

/-- R79, R80: the assembler reads back every instruction as it is written, with every operand. The spelling of registers and
numbers is the spec's decision D17 (assumption 19). -/
def Obligations.AssemblyReadsBack : Prop :=
  ∀ i : Instr, WellFormed i = true → assemble i.asm = some i

/-! ### Control fields -/

/-- R68: the five values of PPP with their masks, the bytes they let through and their letters, and the three reserved
values. -/
def Obligations.ParticipationIsTheTable : Prop :=
  (Participation.ofCode 0b000 = some .all ∧ Participation.ofCode 0b001 = some .upper ∧
    Participation.ofCode 0b010 = some .lower ∧ Participation.ofCode 0b011 = some .even ∧
    Participation.ofCode 0b100 = some .odd ∧ Participation.ofCode 0b101 = none ∧
    Participation.ofCode 0b110 = none ∧ Participation.ofCode 0b111 = none) ∧
  (Participation.all.mask = 0xFFFFFFFFFFFFFFFF ∧ Participation.upper.mask = 0xFFFFFFFF00000000 ∧
    Participation.lower.mask = 0x00000000FFFFFFFF ∧ Participation.even.mask = 0xFF00FF00FF00FF00 ∧
    Participation.odd.mask = 0x00FF00FF00FF00FF) ∧
  ((List.range 8).filter Participation.all.part = [0, 1, 2, 3, 4, 5, 6, 7] ∧
    (List.range 8).filter Participation.upper.part = [0, 1, 2, 3] ∧
    (List.range 8).filter Participation.lower.part = [4, 5, 6, 7] ∧
    (List.range 8).filter Participation.even.part = [0, 2, 4, 6] ∧
    (List.range 8).filter Participation.odd.part = [1, 3, 5, 7]) ∧
  (Participation.all.letter = "a" ∧ Participation.upper.letter = "u" ∧ Participation.lower.letter = "d" ∧
    Participation.even.letter = "e" ∧ Participation.odd.letter = "o")

/-- R21: with the default every register is ordinary: it reads as what was last written to it, register 0 too. With
`R0_HARDWIRED_ZERO` register 0 reads as 0 and a write to it is dropped; every other register is ordinary. -/
def Obligations.RegistersReadAsWritten : Prop :=
  ∀ (s : State) (r q : Reg) (v : DWord),
    (s.params.r0HardwiredZero = false → (s.writeReg r v).readReg q = if q = r then v else s.readReg q) ∧
    (s.params.r0HardwiredZero = true → s.readReg 0 = 0 ∧ s.writeReg 0 v = s ∧
      (r ≠ 0 → (s.writeReg r v).readReg q = if q = r then v else s.readReg q))

/-- R70: the masked write, byte by byte and as a mask of 64 bits; with PPP = 000 it is the plain write. -/
def Obligations.MaskedWriteIsBytewise : Prop :=
  ∀ (p : Participation) (s : State) (d : Reg) (v : DWord), ¬ Discards s d →
    (∀ j < 8, subfield 8 ((s.writeMasked d p v).readReg d) j =
      if p.part j then subfield 8 v j else subfield 8 (s.readReg d) j) ∧
    (s.writeMasked d p v).readReg d = (s.readReg d &&& ~~~p.mask) ||| (v &&& p.mask) ∧
    s.writeMasked d .all v = s.writeReg d v ∧
    OthersKept s (s.writeMasked d p v) d

/-- R69, and the table of U6: a subfield of the result is wholly written or wholly kept exactly where PPP and its width are
not one of the listed combinations. The byte granularity that makes the others possible is the spec's decision D8
(assumption 11). -/
def Obligations.SubfieldIsWholeUnlessListed : Prop :=
  ∀ (p : Participation) (size k : Nat), (size = 8 ∨ size = 16 ∨ size = 32 ∨ size = 64) → size * (k + 1) ≤ 64 →
    (straddles p size = false ↔
      (∀ old v, subfield size (p.merge old v) k = subfield size v k) ∨
      (∀ old v, subfield size (p.merge old v) k = subfield size old k))

/-- R100 to R104: WW does not change what the five bitwise instructions do. -/
def Obligations.BitwiseInstructionsIgnoreWidth : Prop :=
  ∀ (rd ra rb : Reg) (p : Participation) (w₁ w₂ : Width) (s : State),
    exec (.vand rd ra rb p w₁) s = exec (.vand rd ra rb p w₂) s ∧
    exec (.vor rd ra rb p w₁) s = exec (.vor rd ra rb p w₂) s ∧
    exec (.vxor rd ra rb p w₁) s = exec (.vxor rd ra rb p w₂) s ∧
    exec (.vnot rd ra p w₁) s = exec (.vnot rd ra p w₂) s ∧
    exec (.vmov rd ra p w₁) s = exec (.vmov rd ra p w₂) s

/-! ### What each instruction does -/

/-- R100, R101, R102: the bitwise result of two registers, committed under PPP, and the frame. -/
def Obligations.BitwiseTwoSourceResults : Prop :=
  ∀ (rd ra rb : Reg) (p : Participation) (ww : Width) (s : State),
    (∃ t, exec (.vand rd ra rb p ww) s = .next t ∧ Commits s t rd p (s.readReg ra &&& s.readReg rb)) ∧
    (∃ t, exec (.vor rd ra rb p ww) s = .next t ∧ Commits s t rd p (s.readReg ra ||| s.readReg rb)) ∧
    (∃ t, exec (.vxor rd ra rb p ww) s = .next t ∧ Commits s t rd p (s.readReg ra ^^^ s.readReg rb))

/-- R103, R104: the inverted or copied register, committed under PPP, and the frame. -/
def Obligations.BitwiseOneSourceResults : Prop :=
  ∀ (rd ra : Reg) (p : Participation) (ww : Width) (s : State),
    (∃ t, exec (.vnot rd ra p ww) s = .next t ∧ Commits s t rd p (~~~(s.readReg ra))) ∧
    (∃ t, exec (.vmov rd ra p ww) s = .next t ∧ Commits s t rd p (s.readReg ra))

/-- R102: exclusive OR of a register with itself leaves 0 whatever the register holds. -/
def Obligations.VxorWithItselfClears : Prop :=
  ∀ (rd ra : Reg) (ww : Width) (s t : State), exec (.vxor rd ra ra .all ww) s = .next t → t.readReg rd = 0

/-- R110, R112: VADD adds each pair of subfields modulo 2^size, and the frame. -/
def Obligations.VaddAddsSubfields : Prop :=
  ∀ (rd ra rb : Reg) (p : Participation) (ww : Width) (s : State), ∃ t v,
    exec (.vadd rd ra rb p ww) s = .next t ∧
    (∀ k < ww.count, (subfield ww.size v k).toNat =
      ((subfield ww.size (s.readReg ra) k).toNat + (subfield ww.size (s.readReg rb) k).toNat) % 2 ^ ww.size) ∧
    Commits s t rd p v

/-- R111, R112: VSUB subtracts rB from rA in each subfield modulo 2^size, and the frame. -/
def Obligations.VsubSubtractsSubfields : Prop :=
  ∀ (rd ra rb : Reg) (p : Participation) (ww : Width) (s : State), ∃ t v,
    exec (.vsub rd ra rb p ww) s = .next t ∧
    (∀ k < ww.count, ((subfield ww.size v k).toNat : Int) =
      ((subfield ww.size (s.readReg ra) k).toNat - (subfield ww.size (s.readReg rb) k).toNat : Int) % 2 ^ ww.size) ∧
    Commits s t rd p v

/-- R120, R121, R124, R125: the exact unsigned products of the even or the odd subfields, at widths 8, 16 and 32, and the
frame. -/
def Obligations.MultiplyGivesExactProducts : Prop :=
  ∀ (rd ra rb : Reg) (p : Participation) (ww : Width) (s : State), ww ≠ .d →
    (∃ t v, exec (.vmuleu rd ra rb p ww) s = .next t ∧
      (∀ m < ww.pairs, (subfield (2 * ww.size) v m).toNat =
        (subfield ww.size (s.readReg ra) (2 * m)).toNat * (subfield ww.size (s.readReg rb) (2 * m)).toNat) ∧
      Commits s t rd p v) ∧
    (∃ t v, exec (.vmulou rd ra rb p ww) s = .next t ∧
      (∀ m < ww.pairs, (subfield (2 * ww.size) v m).toNat =
        (subfield ww.size (s.readReg ra) (2 * m + 1)).toNat * (subfield ww.size (s.readReg rb) (2 * m + 1)).toNat) ∧
      Commits s t rd p v)

/-- R122, R123, R124, R125: the exact squares of the even or the odd subfields, at widths 8, 16 and 32, and the frame. -/
def Obligations.SquareGivesExactSquares : Prop :=
  ∀ (rd ra : Reg) (p : Participation) (ww : Width) (s : State), ww ≠ .d →
    (∃ t v, exec (.vsqeu rd ra p ww) s = .next t ∧
      (∀ m < ww.pairs, (subfield (2 * ww.size) v m).toNat = (subfield ww.size (s.readReg ra) (2 * m)).toNat ^ 2) ∧
      Commits s t rd p v) ∧
    (∃ t v, exec (.vsqou rd ra p ww) s = .next t ∧
      (∀ m < ww.pairs, (subfield (2 * ww.size) v m).toNat = (subfield ww.size (s.readReg ra) (2 * m + 1)).toNat ^ 2) ∧
      Commits s t rd p v)

/-- R67, R77: multiply and square with WW = 11 do nothing but advance the pc. That the encoding is an illegal instruction is
the spec's decision D10 (assumption 10). -/
def Obligations.MultiplyAtFullWidthDoesNothing : Prop :=
  ∀ (rd ra rb : Reg) (p : Participation) (s : State),
    (∃ t, exec (.vmuleu rd ra rb p .d) s = .next t ∧ OnlyAdvances s t) ∧
    (∃ t, exec (.vmulou rd ra rb p .d) s = .next t ∧ OnlyAdvances s t) ∧
    (∃ t, exec (.vsqeu rd ra p .d) s = .next t ∧ OnlyAdvances s t) ∧
    (∃ t, exec (.vsqou rd ra p .d) s = .next t ∧ OnlyAdvances s t)

/-- R130: VRTTH exchanges the halves of each subfield, and the frame. -/
def Obligations.VrtthSwapsHalves : Prop :=
  ∀ (rd ra : Reg) (p : Participation) (ww : Width) (s : State), ∃ t v,
    exec (.vrtth rd ra p ww) s = .next t ∧
    (∀ k < ww.count, (subfield ww.size v k).toNat =
      (subfield ww.size (s.readReg ra) k).toNat % 2 ^ (ww.size / 2) * 2 ^ (ww.size / 2) +
        (subfield ww.size (s.readReg ra) k).toNat / 2 ^ (ww.size / 2)) ∧
    Commits s t rd p v

/-- R130: "applying VRTTH twice at the same WW restores the value". -/
def Obligations.VrtthTwiceRestores : Prop :=
  ∀ (r : Reg) (p : Participation) (ww : Width) (s t u : State), p = .all →
    exec (.vrtth r r p ww) s = .next t → exec (.vrtth r r p ww) t = .next u → u.readReg r = s.readReg r

/-- R131: the amount of a register shift is the `log2(size)` low bits of rB's subfield; the other bits are ignored, and the
full width cannot be expressed. -/
def Obligations.RegisterShiftAmountIsLowBits : Prop :=
  ∀ (ww : Width) (b : BitVec ww.size),
    laneAmount ww b = (b.setWidth (match ww with | .b => 3 | .h => 4 | .w => 5 | .d => 6)).toNat ∧
    laneAmount ww b = b.toNat % ww.size ∧ laneAmount ww b ≤ ww.size - 1 ∧ laneAmount ww (BitVec.ofNat ww.size ww.size) = 0

/-- R132: the amount of an immediate shift is the 3, 4, 5 or 5 low bits of the field; it stays below 8, 16, 32 and 32. -/
def Obligations.ImmediateShiftAmountIsLowBits : Prop :=
  ∀ (ww : Width) (sh : BitVec 5),
    immAmount ww sh = sh.toNat % 2 ^ (match ww with | .b => 3 | .h => 4 | .w => 5 | .d => 5) ∧
    immAmount ww sh ≤ (match ww with | .b => 7 | .h => 15 | .w => 31 | .d => 31) ∧
    (ww = .b → (sh = 9 ∨ sh = 17 ∨ sh = 25) → immAmount ww sh = 1)

/-- R133, R134, R139: the left shifts multiply each subfield by a power of two modulo 2^size, and the frame. -/
def Obligations.LeftShiftsMultiply : Prop :=
  ∀ (rd ra rb : Reg) (sh : BitVec 5) (p : Participation) (ww : Width) (s : State),
    (∃ t v, exec (.vsll rd ra rb p ww) s = .next t ∧
      (∀ k < ww.count, (subfield ww.size v k).toNat = (subfield ww.size (s.readReg ra) k).toNat *
        2 ^ ((subfield ww.size (s.readReg rb) k).toNat % ww.size) % 2 ^ ww.size) ∧
      Commits s t rd p v) ∧
    (∃ t v, exec (.vslli rd ra sh p ww) s = .next t ∧
      (∀ k < ww.count, (subfield ww.size v k).toNat = (subfield ww.size (s.readReg ra) k).toNat *
        2 ^ (sh.toNat % 2 ^ ww.immBits) % 2 ^ ww.size) ∧
      Commits s t rd p v)

/-- R135, R136, R139: the logical right shifts divide each subfield by a power of two, and the frame. -/
def Obligations.LogicalRightShiftsDivide : Prop :=
  ∀ (rd ra rb : Reg) (sh : BitVec 5) (p : Participation) (ww : Width) (s : State),
    (∃ t v, exec (.vsrl rd ra rb p ww) s = .next t ∧
      (∀ k < ww.count, (subfield ww.size v k).toNat = (subfield ww.size (s.readReg ra) k).toNat /
        2 ^ ((subfield ww.size (s.readReg rb) k).toNat % ww.size)) ∧
      Commits s t rd p v) ∧
    (∃ t v, exec (.vsrli rd ra sh p ww) s = .next t ∧
      (∀ k < ww.count, (subfield ww.size v k).toNat = (subfield ww.size (s.readReg ra) k).toNat /
        2 ^ (sh.toNat % 2 ^ ww.immBits)) ∧
      Commits s t rd p v)

/-- R137, R138, R139: the arithmetic right shifts divide the two's-complement value of each subfield by a power of two,
rounding toward minus infinity, and the frame. -/
def Obligations.ArithmeticRightShiftsFloorDivide : Prop :=
  ∀ (rd ra rb : Reg) (sh : BitVec 5) (p : Participation) (ww : Width) (s : State),
    (∃ t v, exec (.vsra rd ra rb p ww) s = .next t ∧
      (∀ k < ww.count, (subfield ww.size v k).toInt = Int.fdiv (subfield ww.size (s.readReg ra) k).toInt
        (2 ^ ((subfield ww.size (s.readReg rb) k).toNat % ww.size))) ∧
      Commits s t rd p v) ∧
    (∃ t v, exec (.vsrai rd ra sh p ww) s = .next t ∧
      (∀ k < ww.count, (subfield ww.size v k).toInt = Int.fdiv (subfield ww.size (s.readReg ra) k).toInt
        (2 ^ (sh.toNat % 2 ^ ww.immBits))) ∧
      Commits s t rd p v)

/-- R150, R41: VLD loads the 64-bit word at the immediate address into all of rD, and the frame. That byte `j` of the word is
the cell `8 * EA + j` is the model's layout (assumption 3). -/
def Obligations.VldLoadsTheWord : Prop :=
  ∀ (rd : Reg) (imm : BitVec 16) (s : State), imm.toNat < s.params.dmemWords →
    ∃ t v, exec (.vld rd imm) s = .next t ∧
      (∀ j < 8, subfield 8 v j = s.dmemByte (8 * imm.toNat + j)) ∧ Commits s t rd .all v

/-- R151, R41: VSD stores the whole register at the immediate address; every other byte of data memory, every register and
the program are as before. The cells stored to begin at `8 * EA`, with EA the zero-extended immediate; this layout is the model's
(assumption 3). -/
def Obligations.VsdStoresTheRegister : Prop :=
  ∀ (rs : Reg) (imm : BitVec 16) (s : State), imm.toNat < s.params.dmemWords →
    ∃ t, exec (.vsd rs imm) s = .next t ∧
      (∀ j < 8, t.dmemByte (8 * (zextAddr imm).toNat + j) = subfield 8 (s.readReg rs) j) ∧
      (∀ a, ¬ (8 * (zextAddr imm).toNat ≤ a ∧ a < 8 * (zextAddr imm).toNat + 8) → t.dmemByte a = s.dmemByte a) ∧
      RegistersKept s t ∧ t.imem = s.imem ∧ (∀ a, t.fetchWord a = s.fetchWord a) ∧ t.params = s.params ∧
      t.pc = pcAfter s

/-- R151, R52: a load gives what the store before it at the same word stored. -/
def Obligations.LoadAfterStoreGivesTheStoredValue : Prop :=
  ∀ (rs rd : Reg) (imm : BitVec 16) (s t u : State),
    exec (.vsd rs imm) s = .next t → exec (.vld rd imm) t = .next u → ¬ Discards s rd →
      u.readReg rd = s.readReg rs

/-- R40: different addresses name disjoint words, so a store leaves every other word as it was. -/
def Obligations.StoreLeavesOtherWords : Prop :=
  ∀ (rs : Reg) (imm : BitVec 16) (a : Addr) (s t : State),
    exec (.vsd rs imm) s = .next t → a ≠ zextAddr imm → t.dmemWord a = s.dmemWord a

/-- R42: an access beyond a smaller data memory has no step, every other access succeeds, and with `DMEM_WORDS` = 65536 every
access does. The sizes and the missing step are the spec's decision D5 (assumption 8). -/
def Obligations.AccessSucceedsExactlyInRange : Prop :=
  ∀ (r : Reg) (imm : BitVec 16) (s : State),
    (s.params.dmemWords ≤ imm.toNat →
      exec (.vld r imm) s = .fault .dmemOutOfRange ∧ exec (.vsd r imm) s = .fault .dmemOutOfRange) ∧
    (imm.toNat < s.params.dmemWords → (∃ t, exec (.vld r imm) s = .next t) ∧ (∃ t, exec (.vsd r imm) s = .next t)) ∧
    (s.params.dmemWords = 65536 → (∃ t, exec (.vld r imm) s = .next t) ∧ (∃ t, exec (.vsd r imm) s = .next t))

/-- R160: VBEZ goes to the immediate address when all 64 bits of the register are zero, else on to the next instruction; it
changes nothing else. -/
def Obligations.VbezBranchesOnZero : Prop :=
  ∀ (rd : Reg) (imm : BitVec 16) (s : State),
    (s.readReg rd = 0 → imm.toNat % s.params.pcUnit.stride = 0 →
      ∃ t, exec (.vbez rd imm) s = .next t ∧ t.pc = imm.toNat ∧ RegistersKept s t ∧ MemoryKept s t) ∧
    (s.readReg rd ≠ 0 → ∃ t, exec (.vbez rd imm) s = .next t ∧ OnlyAdvances s t)

/-- R161: VBNEZ goes to the immediate address when any of the 64 bits of the register is one, else on to the next
instruction; it changes nothing else. -/
def Obligations.VbnezBranchesOnNonzero : Prop :=
  ∀ (rd : Reg) (imm : BitVec 16) (s : State),
    (s.readReg rd ≠ 0 → imm.toNat % s.params.pcUnit.stride = 0 →
      ∃ t, exec (.vbnez rd imm) s = .next t ∧ t.pc = imm.toNat ∧ RegistersKept s t ∧ MemoryKept s t) ∧
    (s.readReg rd = 0 → ∃ t, exec (.vbnez rd imm) s = .next t ∧ OnlyAdvances s t)

/-- R44, U12: a taken branch has no step exactly where its target is no multiple of `PC_STRIDE`, which cannot be with
`PC_STRIDE` = 1. The parameter and this treatment are the spec's decision D3 (assumption 9). -/
def Obligations.TakenBranchIsStuckExactlyWhenMisaligned : Prop :=
  ∀ (rd : Reg) (imm : BitVec 16) (s : State),
    (s.readReg rd = 0 →
      (exec (.vbez rd imm) s = .fault .misalignedTarget ↔ imm.toNat % s.params.pcUnit.stride ≠ 0)) ∧
    (s.readReg rd ≠ 0 →
      (exec (.vbnez rd imm) s = .fault .misalignedTarget ↔ imm.toNat % s.params.pcUnit.stride ≠ 0)) ∧
    (s.params.pcUnit = .instruction → imm.toNat % s.params.pcUnit.stride = 0)

/-- R162: VNOP is the word 0xF0000000, written vnop, and only advances the pc; any other word with its opcode is
illegal and does the same. -/
def Obligations.VnopOnlyAdvances : Prop :=
  encode .vnop = 0xF0000000 ∧ Instr.vnop.asm = ⟨"vnop", []⟩ ∧
  (∀ s : State, ∃ t, exec .vnop s = .next t ∧ OnlyAdvances s t) ∧
  (∀ w : Insn, fieldOpcode w = 0b111100 → w ≠ 0xF0000000 → decode w = .error .notExactlyVnop ∧
    ∀ s : State, s.fetchWord s.pc = some w → ∃ t, step s = .next t ∧ OnlyAdvances s t)

/-! ### One step -/

/-- R25: a step at an address that holds an instruction is that instruction; the instruction itself moves the pc, and nothing
is added around it. -/
def Obligations.StepRunsTheDecodedInstruction : Prop :=
  ∀ (s : State) (w : Insn) (i : Instr), s.fetchWord s.pc = some w → decode w = .ok i → step s = exec i s

/-- R192, R25: placing an instruction's word where the next step fetches makes that step run the instruction, and changes
nothing but the program. The placing is the model's: `withFetchWord` stands for the host's load of one instruction
(assumption 4), with the layout of a row's bits that assumption 16 says (both DESIGN CHOICE). -/
def Obligations.PlacedInstructionRunsNext : Prop :=
  ∀ (s : State) (i : Instr), WellFormed i = true → s.pc % s.params.pcUnit.stride = 0 →
    let s' := s.withFetchWord 32 (encode i).toNat
    step s' = exec i s' ∧ s'.regs = s.regs ∧ s'.pc = s.pc ∧ s'.dmem = s.dmem ∧ s'.params = s.params

/-- R163, R77: an illegal word changes no register and no memory. That the pc advances is the spec's decision D12 (assumption
10). -/
def Obligations.IllegalWordOnlyAdvances : Prop :=
  ∀ (s : State) (w : Insn) (reason : IllegalWord), s.fetchWord s.pc = some w → decode w = .error reason →
    ∃ t, step s = .next t ∧ OnlyAdvances s t

/-- R48, R194: the run has ended exactly where the pc is outside the program image. This end of a run is the spec's decision
D7 (assumption 7). -/
def Obligations.RunEndsExactlyOutsideTheImage : Prop :=
  ∀ s : State, step s = .fault .runEnded ↔ s.fetchWord s.pc = none

/-- R172, R153: with the default memory size and pc unit (decisions D5 and D3, assumptions 8 and 9) every word of the program
image has a step: nothing traps, nothing is refused, nothing is stuck. -/
def Obligations.EveryFetchedWordCompletes : Prop :=
  ∀ (s : State) (w : Insn), 65536 ≤ s.params.dmemWords → s.params.pcUnit = .instruction →
    s.fetchWord s.pc = some w → ∃ t, step s = .next t

/-- R25, R164: only a branch moves the pc otherwise than to the next instruction, and then to its own target. -/
def Obligations.OnlyBranchesJump : Prop :=
  ∀ (i : Instr) (s t : State), exec i s = .next t →
    (i.branchTarget = none → t.pc = pcAfter s) ∧
    (∀ a, i.branchTarget = some a → t.pc = pcAfter s ∨ t.pc = a)

/-- R22, R27: an instruction changes no register but the one the table of R22 says it writes. -/
def Obligations.OnlyTheDestinationRegisterChanges : Prop :=
  ∀ (i : Instr) (s t : State), exec i s = .next t → ∀ r, i.writes ≠ some r → t.readReg r = s.readReg r

/-- R30, R43: no instruction but VSD changes a byte of data memory, and a step over an illegal word changes none. -/
def Obligations.OnlyVsdChangesDataMemory : Prop :=
  ∀ (s t : State) (w : Insn), s.fetchWord s.pc = some w → step s = .next t →
    (∀ r imm, decode w ≠ .ok (.vsd r imm)) → ∀ a, t.dmemByte a = s.dmemByte a

/-- R49: no step changes the program or the parameters. The separate instruction memory is the spec's decision D4 (assumption
4). -/
def Obligations.NoStepChangesTheProgram : Prop :=
  ∀ s t : State, step s = .next t →
    t.imem = s.imem ∧ t.params = s.params ∧ ∀ a, t.fetchWord a = s.fetchWord a

/-- R22, R43: what an instruction does depends on nothing but the registers that R22 lists as read, the word it loads, the pc
and the parameters: in two states that agree on those it completes alike and writes alike. -/
def Obligations.ResultDependsOnListedReadsOnly : Prop :=
  ∀ (i : Instr) (s₁ s₂ t₁ : State),
    s₁.pc = s₂.pc → s₁.params = s₂.params → (∀ r ∈ i.reads, s₁.readReg r = s₂.readReg r) →
    (∀ a, i.loads = some a → s₁.dmemWord a = s₂.dmemWord a) → exec i s₁ = .next t₁ →
    ∃ t₂, exec i s₂ = .next t₂ ∧ t₁.pc = t₂.pc ∧
      (∀ r, i.writes = some r → t₁.readReg r = t₂.readReg r) ∧
      (∀ a, i.stores = some a → t₁.dmemWord a = t₂.dmemWord a)

/-- R112, R139: no bit crosses a subfield boundary. Where two states agree on subfield `k` of every register, they still do
after one instruction that works subfield by subfield at that width. -/
def Obligations.SubfieldsAreIsolated : Prop :=
  ∀ (i : Instr) (ww : Width) (s₁ s₂ t₁ t₂ : State) (k : Nat), i.laneWidth = some ww → k < ww.count →
    s₁.params = s₂.params → (∀ r, subfield ww.size (s₁.readReg r) k = subfield ww.size (s₂.readReg r) k) →
    exec i s₁ = .next t₁ → exec i s₂ = .next t₂ →
    ∀ r, subfield ww.size (t₁.readReg r) k = subfield ww.size (t₂.readReg r) k

/-! ### Invariant, reset, host -/

/-- R42, R23, R44, R21, R49: every step keeps the machine's invariant, from every state that has it. The canonical form of the two
memories is the model's own (assumptions 2, 3, 4); the parameters are decisions D1, D2, D3, D5 (assumptions 5, 6). -/
def Obligations.StepKeepsTheInvariant : Prop :=
  ∀ s t : State, Inv s → step s = .next t → Inv t

/-- R34, R21: the invariant holds after reset, and after reset with images in their canonical form, which is the model's own
(assumptions 2, 3, 4). Where register 0 is hardwired, that its cell holds 0 at reset rests on the model's zeroed registers
(assumption 1, DESIGN CHOICE; the spec says only that it reads as 0). -/
def Obligations.ResetHasTheInvariant : Prop :=
  Inv State.reset ∧
  ∀ (p : Config.Params) (program : List Insn) (dmemInit : Memory),
    dmemInit.wf = true → (∀ c ∈ dmemInit, c.1 < 8 * p.dmemWords) → 16 ≤ p.pcWidth → p.pcReset < 2 ^ p.pcWidth →
    p.pcReset % p.pcUnit.stride = 0 →
    Inv (State.resetWith p (programImage program) dmemInit)

/-- R34, R190: what reset leaves in the pc and in the memories, the spec's decision D6 (assumption 4); the registers are
unspecified there and nothing is said of them here. That the parameters are the defaults of R3 rests on the spec's decisions
D1, D2, D3, D5, D6, D15 and on their place in the state (assumptions 5, 6). -/
def Obligations.ResetPlacesPcAndImages : Prop :=
  State.reset.pc = 0 ∧ State.reset.params = Config.gold ∧ (∀ a, State.reset.fetchWord a = none) ∧
  ∀ (p : Config.Params) (imem dmemInit : Memory),
    (State.resetWith p imem dmemInit).pc = p.pcReset ∧
    (∀ a b, dmemInit.lookup a = some b → (State.resetWith p imem dmemInit).dmemByte a = b) ∧
    (State.resetWith p imem dmemInit).imem = imem

/-- R48, R192: a program loaded at address 0 occupies the addresses 0, `PC_STRIDE`, ... and no others (decisions D4, D18,
assumption 4). -/
def Obligations.LoadedProgramIsFetched : Prop :=
  ∀ (p : Config.Params) (program : List Insn) (data : List (Addr × DWord)) (a : Nat),
    (State.boot p program data).fetchWord a =
      if a % p.pcUnit.stride = 0 then program[a / p.pcUnit.stride]? else none

/-- R34, R192: initial data is in data memory at its addresses, and nothing is defined elsewhere (decisions D6, D18,
assumption 4). That the first of two entries for an address counts (assumption 18) and that byte `j` of a word is the cell
`8 * a + j` (assumption 3) are the model's choices. -/
def Obligations.InitialDataIsInMemory : Prop :=
  ∀ (p : Config.Params) (program : List Insn) (data : List (Addr × DWord)) (a : Addr),
    (∀ v, data.lookup a = some v → (State.boot p program data).dmemWord a = v) ∧
    (data.lookup a = none → ∀ j < 8, (State.boot p program data).dmem.lookup (8 * a.toNat + j) = none)

/-- R197: with the default `HAZARD_DISTANCE` = 0 no run is refused (decision D15, assumption 12). -/
def Obligations.DefaultHazardDistanceRefusesNothing : Prop :=
  ∀ (n : Nat) (s : State), s.params.hazardDistance = 0 → hazardFree n [] s = true

/-- R23, decision D2: the width of the pc, 16 bits or more, makes no difference to a run of a program whose last instruction
is followed by an address below 2^16. The width is a parameter here (assumption 6). -/
def Obligations.RunsDoNotDependOnPcWidth : Prop :=
  ∀ (n : Nat) (s : State) (width : Nat), 16 ≤ s.params.pcWidth → 16 ≤ width →
    (∀ a, s.fetchWord a ≠ none → a + s.params.pcUnit.stride < 2 ^ 16) →
    State.runFor n (withPcWidth s width) = withPcWidth (State.runFor n s) width
end

