-- ==== Sys2Proof/Laws/Encoding.lean ====
section
/-! SUPPORT. The fields of an encoded word, one lemma per field and format, and the bytes of a word put together again. -/

namespace Sys2Proof

/-! ### Control fields and register numbers -/

@[simp] theorem Width.ofCode_code (ww : Width) : Width.ofCode ww.code = ww := by cases ww <;> rfl

@[simp] theorem Width.code_ofCode (c : BitVec 2) : (Width.ofCode c).code = c := by revert c; decide

@[simp] theorem Participation.ofCode_code (p : Participation) : Participation.ofCode p.code = some p := by
  cases p <;> rfl

theorem Participation.code_of_ofCode {c : BitVec 3} {p : Participation} (h : Participation.ofCode c = some p) :
    p.code = c := by
  revert c; cases p <;> decide

@[simp] theorem regOf_regCode (r : Reg) : regOf (regCode r) = r := rfl

@[simp] theorem regCode_regOf (f : BitVec 5) : regCode (regOf f) = f := rfl

/-! ### Format R -/

section FormatR

variable (rd ra : Reg) (rb : BitVec 5) (ppp : Participation) (ww : Width) (fn : BitVec 6)

@[simp] theorem fieldOpcode_encodeR : fieldOpcode (encodeR rd ra rb ppp ww fn) = 0b101010 := by
  apply BitVec.eq_of_getLsbD_eq; intro i hi
  simp only [fieldOpcode, encodeR, BitVec.getLsbD_extractLsb', BitVec.getLsbD_append]
  interval_cases i <;> simp

@[simp] theorem fieldRd_encodeR : fieldRd (encodeR rd ra rb ppp ww fn) = regCode rd := by
  apply BitVec.eq_of_getLsbD_eq; intro i hi
  simp only [fieldRd, encodeR, BitVec.getLsbD_extractLsb', BitVec.getLsbD_append]
  interval_cases i <;> simp

@[simp] theorem fieldRa_encodeR : fieldRa (encodeR rd ra rb ppp ww fn) = regCode ra := by
  apply BitVec.eq_of_getLsbD_eq; intro i hi
  simp only [fieldRa, encodeR, BitVec.getLsbD_extractLsb', BitVec.getLsbD_append]
  interval_cases i <;> simp

@[simp] theorem fieldRb_encodeR : fieldRb (encodeR rd ra rb ppp ww fn) = rb := by
  apply BitVec.eq_of_getLsbD_eq; intro i hi
  simp only [fieldRb, encodeR, BitVec.getLsbD_extractLsb', BitVec.getLsbD_append]
  interval_cases i <;> simp

@[simp] theorem fieldPpp_encodeR : fieldPpp (encodeR rd ra rb ppp ww fn) = ppp.code := by
  apply BitVec.eq_of_getLsbD_eq; intro i hi
  simp only [fieldPpp, encodeR, BitVec.getLsbD_extractLsb', BitVec.getLsbD_append]
  interval_cases i <;> simp

@[simp] theorem fieldWw_encodeR : fieldWw (encodeR rd ra rb ppp ww fn) = ww.code := by
  apply BitVec.eq_of_getLsbD_eq; intro i hi
  simp only [fieldWw, encodeR, BitVec.getLsbD_extractLsb', BitVec.getLsbD_append]
  interval_cases i <;> simp

@[simp] theorem fieldFunction_encodeR : fieldFunction (encodeR rd ra rb ppp ww fn) = fn := by
  apply BitVec.eq_of_getLsbD_eq; intro i hi
  simp only [fieldFunction, encodeR, BitVec.getLsbD_extractLsb', BitVec.getLsbD_append]
  interval_cases i <;> simp

/-- The opcode and the function of a word of format R under the mask of a three-operand row. -/
theorem encodeR_and : encodeR rd ra rb ppp ww fn &&& 0xFC00003F = (0b101010 : BitVec 6) ++ (0 : BitVec 20) ++ fn := by
  apply BitVec.eq_of_getLsbD_eq; intro i hi
  simp only [encodeR, BitVec.getLsbD_and, BitVec.getLsbD_append]
  interval_cases i <;> simp

/-- The same under the mask of a row whose rB field is 00000. -/
theorem encodeR_and_oneSource :
    encodeR rd ra 0 ppp ww fn &&& 0xFC00F83F = (0b101010 : BitVec 6) ++ (0 : BitVec 20) ++ fn := by
  apply BitVec.eq_of_getLsbD_eq; intro i hi
  simp only [encodeR, BitVec.getLsbD_and, BitVec.getLsbD_append]
  interval_cases i <;> simp

end FormatR

/-! ### Format M -/

section FormatM

variable (op : BitVec 6) (r : Reg) (imm : BitVec 16)

@[simp] theorem fieldOpcode_encodeM : fieldOpcode (encodeM op r imm) = op := by
  apply BitVec.eq_of_getLsbD_eq; intro i hi
  simp only [fieldOpcode, encodeM, BitVec.getLsbD_extractLsb', BitVec.getLsbD_append]
  interval_cases i <;> simp

@[simp] theorem fieldRd_encodeM : fieldRd (encodeM op r imm) = regCode r := by
  apply BitVec.eq_of_getLsbD_eq; intro i hi
  simp only [fieldRd, encodeM, BitVec.getLsbD_extractLsb', BitVec.getLsbD_append]
  interval_cases i <;> simp

@[simp] theorem fieldRa_encodeM : fieldRa (encodeM op r imm) = 0 := by
  apply BitVec.eq_of_getLsbD_eq; intro i hi
  simp only [fieldRa, encodeM, BitVec.getLsbD_extractLsb', BitVec.getLsbD_append]
  interval_cases i <;> simp

@[simp] theorem fieldImm_encodeM : fieldImm (encodeM op r imm) = imm := by
  apply BitVec.eq_of_getLsbD_eq; intro i hi
  simp only [fieldImm, encodeM, BitVec.getLsbD_extractLsb', BitVec.getLsbD_append]
  interval_cases i <;> simp

/-- The opcode and the zero field of a word of format M under the mask of its rows. -/
theorem encodeM_and : encodeM op r imm &&& 0xFC1F0000 = op ++ (0 : BitVec 26) := by
  apply BitVec.eq_of_getLsbD_eq; intro i hi
  simp only [encodeM, BitVec.getLsbD_and, BitVec.getLsbD_append]
  interval_cases i <;> simp

end FormatM

/-! ### The decoder, function by function -/

theorem oneSource_ok {rb : BitVec 5} {i j : Instr} (h : oneSource rb i = .ok j) : rb = 0 ∧ j = i := by
  unfold oneSource at h
  split at h
  · injection h with h; exact ⟨‹_›, h.symm⟩
  · cases h

theorem notDouble_ok {ww : Width} {i : Except IllegalWord Instr} {j : Instr} (h : notDouble ww i = .ok j) :
    ww.multiplies = true ∧ i = .ok j := by
  unfold notDouble at h
  split at h
  · exact ⟨‹_›, h⟩
  · cases h

theorem decodeM_ok {w : Insn} {f : Reg → BitVec 16 → Instr} {i : Instr} (h : decodeM w f = .ok i) :
    fieldRa w = 0 ∧ i = f (regOf (fieldRd w)) (fieldImm w) := by
  unfold decodeM at h
  split at h
  · injection h with h; exact ⟨‹_›, h.symm⟩
  · cases h

/-- What the function field selects is well-formed, and its word has the fields it was read from. -/
theorem decodeFunction_ok {fn : BitVec 6} {rd ra : Reg} {rb : BitVec 5} {ppp : Participation} {ww : Width} {i : Instr}
    (h : decodeFunction fn rd ra rb ppp ww = .ok i) :
    WellFormed i = true ∧ encode i = encodeR rd ra rb ppp ww fn := by
  unfold decodeFunction at h
  rcases eq_or_ne fn 1 with rfl | h1
  · rw [if_pos rfl] at h; injection h with h; subst h; exact ⟨rfl, rfl⟩
  rw [if_neg h1] at h
  rcases eq_or_ne fn 2 with rfl | h2
  · rw [if_pos rfl] at h; injection h with h; subst h; exact ⟨rfl, rfl⟩
  rw [if_neg h2] at h
  rcases eq_or_ne fn 3 with rfl | h3
  · rw [if_pos rfl] at h; injection h with h; subst h; exact ⟨rfl, rfl⟩
  rw [if_neg h3] at h
  rcases eq_or_ne fn 4 with rfl | h4
  · rw [if_pos rfl] at h; obtain ⟨rfl, rfl⟩ := oneSource_ok h; exact ⟨rfl, rfl⟩
  rw [if_neg h4] at h
  rcases eq_or_ne fn 5 with rfl | h5
  · rw [if_pos rfl] at h; obtain ⟨rfl, rfl⟩ := oneSource_ok h; exact ⟨rfl, rfl⟩
  rw [if_neg h5] at h
  rcases eq_or_ne fn 6 with rfl | h6
  · rw [if_pos rfl] at h; injection h with h; subst h; exact ⟨rfl, rfl⟩
  rw [if_neg h6] at h
  rcases eq_or_ne fn 7 with rfl | h7
  · rw [if_pos rfl] at h; injection h with h; subst h; exact ⟨rfl, rfl⟩
  rw [if_neg h7] at h
  rcases eq_or_ne fn 8 with rfl | h8
  · rw [if_pos rfl] at h; obtain ⟨hw, h⟩ := notDouble_ok h; injection h with h; subst h; exact ⟨hw, rfl⟩
  rw [if_neg h8] at h
  rcases eq_or_ne fn 9 with rfl | h9
  · rw [if_pos rfl] at h; obtain ⟨hw, h⟩ := notDouble_ok h; injection h with h; subst h; exact ⟨hw, rfl⟩
  rw [if_neg h9] at h
  rcases eq_or_ne fn 10 with rfl | h10
  · rw [if_pos rfl] at h; obtain ⟨hw, h⟩ := notDouble_ok h; obtain ⟨rfl, rfl⟩ := oneSource_ok h; exact ⟨hw, rfl⟩
  rw [if_neg h10] at h
  rcases eq_or_ne fn 11 with rfl | h11
  · rw [if_pos rfl] at h; obtain ⟨hw, h⟩ := notDouble_ok h; obtain ⟨rfl, rfl⟩ := oneSource_ok h; exact ⟨hw, rfl⟩
  rw [if_neg h11] at h
  rcases eq_or_ne fn 12 with rfl | h12
  · rw [if_pos rfl] at h; obtain ⟨rfl, rfl⟩ := oneSource_ok h; exact ⟨rfl, rfl⟩
  rw [if_neg h12] at h
  rcases eq_or_ne fn 13 with rfl | h13
  · rw [if_pos rfl] at h; injection h with h; subst h; exact ⟨rfl, rfl⟩
  rw [if_neg h13] at h
  rcases eq_or_ne fn 14 with rfl | h14
  · rw [if_pos rfl] at h; injection h with h; subst h; exact ⟨rfl, rfl⟩
  rw [if_neg h14] at h
  rcases eq_or_ne fn 15 with rfl | h15
  · rw [if_pos rfl] at h; injection h with h; subst h; exact ⟨rfl, rfl⟩
  rw [if_neg h15] at h
  rcases eq_or_ne fn 16 with rfl | h16
  · rw [if_pos rfl] at h; injection h with h; subst h; exact ⟨rfl, rfl⟩
  rw [if_neg h16] at h
  rcases eq_or_ne fn 17 with rfl | h17
  · rw [if_pos rfl] at h; injection h with h; subst h; exact ⟨rfl, rfl⟩
  rw [if_neg h17] at h
  rcases eq_or_ne fn 18 with rfl | h18
  · rw [if_pos rfl] at h; injection h with h; subst h; exact ⟨rfl, rfl⟩
  rw [if_neg h18] at h
  cases h

/-! ### A word is its fields -/

/-- A word is the fields of format R one after the other. -/
theorem fields_append_R (w : Insn) :
    fieldOpcode w ++ fieldRd w ++ fieldRa w ++ fieldRb w ++ fieldPpp w ++ fieldWw w ++ fieldFunction w = w := by
  apply BitVec.eq_of_getLsbD_eq; intro i hi
  simp only [fieldOpcode, fieldRd, fieldRa, fieldRb, fieldPpp, fieldWw, fieldFunction, BitVec.getLsbD_append,
    BitVec.getLsbD_extractLsb']
  interval_cases i <;> simp

/-- A word is the fields of format M one after the other. -/
theorem fields_append_M (w : Insn) : fieldOpcode w ++ fieldRd w ++ fieldRa w ++ fieldImm w = w := by
  apply BitVec.eq_of_getLsbD_eq; intro i hi
  simp only [fieldOpcode, fieldRd, fieldRa, fieldImm, BitVec.getLsbD_append, BitVec.getLsbD_extractLsb']
  interval_cases i <;> simp

/-! ### Bytes -/

/-- The four bytes of a word, most significant first, make the word (R46). -/
@[simp] theorem insnOfBytes_byteOf (w : Insn) :
    insnOfBytes (byteOf w 0) (byteOf w 1) (byteOf w 2) (byteOf w 3) = w := by
  apply BitVec.eq_of_getLsbD_eq; intro i hi
  simp only [insnOfBytes, byteOf, BitVec.getLsbD_append, BitVec.getLsbD_extractLsb']
  interval_cases i <;> simp

end Sys2Proof
end

