-- ==== Sys2Proof/Laws/Memory.lean ====
section
/-! SUPPORT. Memories: read after write, and the canonical form that every operation keeps. -/

namespace Sys2Proof.Machine

/-! ### Reading after writing -/

theorem Memory.lookup_write (m : Memory) (a x : Nat) (b : Byte) :
    (m.write a b).lookup x = if x = a then some b else m.lookup x := by
  induction m with
  | nil => simp [Memory.write, Memory.lookup]
  | cons c m ih =>
    obtain ⟨k, c⟩ := c
    simp only [Memory.write]
    split
    · simp [Memory.lookup]
    · split
      · subst_vars; simp only [Memory.lookup]; split <;> rfl
      · simp only [Memory.lookup, ih]; split <;> split <;> simp_all

@[simp] theorem Memory.lookup_write_same (m : Memory) (a : Nat) (b : Byte) : (m.write a b).lookup a = some b := by
  simp [Memory.lookup_write]

theorem Memory.lookup_write_other (m : Memory) {a x : Nat} (b : Byte) (h : x ≠ a) :
    (m.write a b).lookup x = m.lookup x := by
  simp [Memory.lookup_write, h]

/-- A block write is read back inside the block and leaves every other address alone. -/
theorem Memory.lookup_writeBytes (m : Memory) (base n x : Nat) (f : Nat → Byte) :
    (m.writeBytes base n f).lookup x = if base ≤ x ∧ x < base + n then some (f (x - base)) else m.lookup x := by
  induction n with
  | zero => simp [Memory.writeBytes]
  | succ n ih =>
    simp only [Memory.writeBytes, Memory.lookup_write, ih]
    by_cases hx : x = base + n
    · subst hx; simp
    · rw [if_neg hx]
      by_cases h : base ≤ x ∧ x < base + n
      · rw [if_pos h, if_pos (by omega)]
      · rw [if_neg h, if_neg (by omega)]

/-! ### The canonical form -/

/-- A canonical tail whose addresses all lie above the head's is canonical with it. -/
theorem Memory.wf_cons (a : Nat) (b : Byte) (m : Memory) :
    Memory.wf ((a, b) :: m) = true ↔ Memory.wf m = true ∧ ∀ c ∈ m, a < c.1 := by
  induction m generalizing a b with
  | nil => simp [Memory.wf]
  | cons c m ih =>
    obtain ⟨k, d⟩ := c
    simp only [Memory.wf, Bool.and_eq_true, decide_eq_true_eq, List.mem_cons, forall_eq_or_imp]
    constructor
    · rintro ⟨hak, hm⟩
      exact ⟨hm, hak, fun c hc => lt_trans hak ((ih k d).1 hm |>.2 c hc)⟩
    · rintro ⟨hm, hak, _⟩
      exact ⟨hak, hm⟩

/-- A cell of the memory after a write is the written one or was there before. -/
theorem Memory.mem_write {m : Memory} {a : Nat} {b : Byte} {c : Host.Cell} (h : c ∈ m.write a b) :
    c = (a, b) ∨ c ∈ m := by
  induction m with
  | nil => simpa [Memory.write] using h
  | cons k m ih =>
    simp only [Memory.write] at h
    split at h
    · simpa using h
    · split at h
      · rcases List.mem_cons.1 h with h | h
        · exact .inl h
        · exact .inr (List.mem_cons_of_mem _ h)
      · rcases List.mem_cons.1 h with h | h
        · exact .inr (h ▸ List.mem_cons_self)
        · exact (ih h).imp id (List.mem_cons_of_mem _)

/-- A write keeps the canonical form. -/
theorem Memory.wf_write {m : Memory} (h : m.wf = true) (a : Nat) (b : Byte) : (m.write a b).wf = true := by
  induction m with
  | nil => rfl
  | cons k m ih =>
    obtain ⟨k, d⟩ := k
    have ⟨hm, hk⟩ := (Memory.wf_cons k d m).1 h
    simp only [Memory.write]
    split
    · rename_i hak
      refine (Memory.wf_cons _ _ _).2 ⟨h, fun c hc => ?_⟩
      rcases List.mem_cons.1 hc with rfl | hc
      · exact hak
      · exact lt_trans hak (hk c hc)
    · split
      · rename_i hak
        subst hak
        exact (Memory.wf_cons _ _ _).2 ⟨hm, hk⟩
      · rename_i h1 h2
        refine (Memory.wf_cons _ _ _).2 ⟨ih hm, fun c hc => ?_⟩
        rcases Memory.mem_write hc with rfl | hc
        · show k < a; omega
        · exact hk c hc

/-- A block write keeps the canonical form. -/
theorem Memory.wf_writeBytes {m : Memory} (h : m.wf = true) (base n : Nat) (f : Nat → Byte) :
    (m.writeBytes base n f).wf = true := by
  induction n with
  | zero => exact h
  | succ n ih => exact Memory.wf_write ih _ _

/-- The cells of a memory after a block write lie in the block or were there before. -/
theorem Memory.mem_writeBytes {m : Memory} {base n : Nat} {f : Nat → Byte} {c : Host.Cell}
    (h : c ∈ m.writeBytes base n f) : (base ≤ c.1 ∧ c.1 < base + n) ∨ c ∈ m := by
  induction n with
  | zero => exact .inr h
  | succ n ih =>
    rcases Memory.mem_write h with rfl | h
    · exact .inl ⟨by simp, by simp⟩
    · exact (ih h).imp (fun h => ⟨h.1, by omega⟩) id

/-! ### Images -/

/-- The cells of a byte image lie from its base on. -/
theorem imageOfBytes_mem {base : Nat} {bs : List Byte} {c : Host.Cell} (h : c ∈ imageOfBytes base bs) :
    base ≤ c.1 ∧ c.1 < base + bs.length := by
  induction bs generalizing base with
  | nil => simp [imageOfBytes] at h
  | cons b bs ih =>
    rcases List.mem_cons.1 h with rfl | h
    · simp
    · have := ih h; simp only [List.length_cons]; omega

/-- A byte image is in the canonical form. -/
theorem imageOfBytes_wf (base : Nat) (bs : List Byte) : Memory.wf (imageOfBytes base bs) = true := by
  induction bs generalizing base with
  | nil => rfl
  | cons b bs ih => exact (Memory.wf_cons _ _ _).2 ⟨ih _, fun c hc => (imageOfBytes_mem hc).1⟩

/-- What a byte image holds at an address. -/
theorem imageOfBytes_lookup (base : Nat) (bs : List Byte) (x : Nat) :
    Memory.lookup (imageOfBytes base bs) x = if base ≤ x then bs[x - base]? else none := by
  induction bs generalizing base with
  | nil => simp [imageOfBytes, Memory.lookup]
  | cons b bs ih =>
    simp only [imageOfBytes, Memory.lookup, ih]
    by_cases hx : x = base
    · subst hx; simp
    · rw [if_neg hx]
      by_cases h : base + 1 ≤ x
      · rw [if_pos h, if_pos (by omega), show x - base = (x - (base + 1)) + 1 by omega]; rfl
      · rw [if_neg h, if_neg (by omega)]

/-- A program's image is in the canonical form. -/
theorem programImage_wf (p : List Insn) : Memory.wf (programImage p) = true := imageOfBytes_wf ..

/-- An image of data is in the canonical form. -/
theorem dataImage_wf (d : List (Addr × DWord)) : Memory.wf (dataImage d) = true := by
  induction d with
  | nil => rfl
  | cons x d ih => exact Memory.wf_writeBytes ih ..

/-- The memories of the reset state are in the canonical form. -/
theorem reset_memories_wf : State.reset.dmem.wf = true ∧ State.reset.imem.wf = true := ⟨rfl, rfl⟩

end Sys2Proof.Machine
end

