-- ==== Sys2Proof/Laws/Operands.lean ====
section
/-! SUPPORT. Subfields, packing and participation: the bits of each, and a subfield of a packed or merged register. -/

namespace Sys2Proof

@[simp] theorem Width.size_mul_count (ww : Width) : ww.size * ww.count = 64 := by cases ww <;> rfl

theorem Width.size_pos (ww : Width) : 0 < ww.size := by cases ww <;> decide

theorem Width.size_eq (ww : Width) : ww.size = 2 ^ (ww.immBits + if ww = .d then 1 else 0) := by cases ww <;> rfl

/-- The widths of the multiplies: results of twice the width fill the register. -/
theorem Width.double_size_mul_pairs {ww : Width} (h : ww.multiplies = true) : 2 * ww.size * ww.pairs = 64 := by
  cases ww <;> first | rfl | simp [Width.multiplies] at h

/-- A bit of a subfield. -/
theorem getLsbD_subfield (size : Nat) (v : DWord) (k i : Nat) :
    (subfield size v k).getLsbD i = (decide (i < size) && v.getLsbD (64 - size * (k + 1) + i)) := by
  simp [subfield, BitVec.getLsbD_extractLsb']

/-- A bit of a packed register. -/
theorem getLsbD_pack {size : Nat} (hs : 0 < size) (n : Nat) (e : Nat → BitVec size) (i : Nat) :
    (pack size n e).getLsbD i =
      (decide (i < 64) && decide (i < size * n) && (e (n - 1 - i / size)).getLsbD (i % size)) := by
  induction n generalizing i with
  | zero => simp [pack]
  | succ n ih =>
    simp only [pack, BitVec.getLsbD_or, BitVec.getLsbD_shiftLeft, BitVec.getLsbD_setWidth, ih]
    by_cases hi : i < size
    · have h0 : i / size = 0 := Nat.div_eq_of_lt hi
      have hlt : i < size * (n + 1) := lt_of_lt_of_le hi (Nat.le_mul_of_pos_right _ (by omega))
      simp [hi, h0, hlt, Nat.mod_eq_of_lt hi]
    · have hle : size ≤ i := not_lt.1 hi
      have hdiv : i / size = (i - size) / size + 1 := by
        conv_lhs => rw [← Nat.sub_add_cancel hle, Nat.add_div_right _ hs]
      have hmod : (i - size) % size = i % size := by
        conv_rhs => rw [← Nat.sub_add_cancel hle, Nat.add_mod_right]
      have hbound : (i - size < size * n) ↔ (i < size * (n + 1)) := by rw [Nat.mul_succ]; omega
      have hge : (e n).getLsbD i = false := BitVec.getLsbD_of_ge _ _ hle
      by_cases h64 : i < 64
      · simp only [hge, h64, hi, hbound, hmod, hdiv]
        simp only [show i - size < 64 by omega, show n + 1 - 1 - ((i - size) / size + 1) = n - 1 - (i - size) / size by omega]
        simp
      · simp [h64]

/-- A subfield of a packed register is the element packed there (R6). -/
theorem subfield_pack {size n : Nat} (hs : 0 < size) (h : size * n = 64) (e : Nat → BitVec size) {k : Nat} (hk : k < n) :
    subfield size (pack size n e) k = e k := by
  apply BitVec.eq_of_getLsbD_eq
  intro i hi
  have hle : size * (k + 1) ≤ 64 := h ▸ Nat.mul_le_mul_left _ hk
  have e1 : 64 - size * (k + 1) = size * (n - (k + 1)) := by rw [Nat.mul_sub, h]
  have e2 : (size * (n - (k + 1)) + i) / size = n - (k + 1) := by
    rw [Nat.mul_add_div hs, Nat.div_eq_of_lt hi, Nat.add_zero]
  have e3 : (size * (n - (k + 1)) + i) % size = i := by rw [Nat.mul_add_mod, Nat.mod_eq_of_lt hi]
  have hb : size * (n - (k + 1)) + i < 64 := by
    have : size ≤ size * (k + 1) := Nat.le_mul_of_pos_right _ (by omega)
    omega
  rw [getLsbD_subfield, e1, getLsbD_pack hs, e2, e3]
  have e4 : n - 1 - (n - (k + 1)) = k := by
    clear * - hk
    omega
  simp [-BitVec.getLsbD_eq_getElem, hi, hb, h, e4]

/-- The subfields of a register determine it. -/
theorem eq_of_subfields {size n : Nat} (hs : 0 < size) (h : size * n = 64) {v w : DWord}
    (hk : ∀ k < n, subfield size v k = subfield size w k) : v = w := by
  apply BitVec.eq_of_getLsbD_eq
  intro i hi
  have hlt : i / size < n := (Nat.div_lt_iff_lt_mul hs).2 (by rwa [Nat.mul_comm, h])
  have hd := Nat.div_add_mod i size
  generalize i / size = q at hlt hd
  have hb := congrArg (fun x => BitVec.getLsbD x (i % size)) (hk (n - 1 - q) (by omega))
  have e1 : 64 - size * (n - 1 - q + 1) + i % size = i := by
    rw [show n - 1 - q + 1 = n - q by omega, Nat.mul_sub, h]
    have : size * q ≤ 64 := by omega
    omega
  simpa only [getLsbD_subfield, Nat.mod_lt _ hs, decide_true, Bool.true_and, e1] using hb

/-- A subfield of the result of an operation on two sources. -/
theorem subfield_zipLanes (ww : Width) (f : BitVec ww.size → BitVec ww.size → BitVec ww.size) (a b : DWord) {k : Nat}
    (hk : k < ww.count) :
    subfield ww.size (zipLanes ww f a b) k = f (subfield ww.size a k) (subfield ww.size b k) :=
  subfield_pack ww.size_pos ww.size_mul_count _ hk

/-- A subfield of the result of an operation on one source. -/
theorem subfield_mapLanes (ww : Width) (f : BitVec ww.size → BitVec ww.size) (a : DWord) {k : Nat} (hk : k < ww.count) :
    subfield ww.size (mapLanes ww f a) k = f (subfield ww.size a k) :=
  subfield_pack ww.size_pos ww.size_mul_count _ hk

/-- A result of a multiply or square. -/
theorem subfield_products {ww : Width} (h : ww.multiplies = true) (odd : Nat) (a b : DWord) {m : Nat} (hm : m < ww.pairs) :
    subfield (2 * ww.size) (Machine.products ww odd a b) m =
      Machine.wideProduct (subfield ww.size a (2 * m + odd)) (subfield ww.size b (2 * m + odd)) :=
  subfield_pack (by have := ww.size_pos; omega) (Width.double_size_mul_pairs h) _ hm

/-- Bytes of the source's numbering are the subfields of 8 bits (R7). -/
theorem byteOf_eq_subfield (v : DWord) (j : Nat) : byteOf v j = subfield 8 v j := rfl

/-! ### The branches' condition and their target -/

@[simp] theorem isZero_eq_true (v : DWord) : isZero v = true ↔ v = 0 := by simp [isZero]

@[simp] theorem isZero_eq_false (v : DWord) : isZero v = false ↔ v ≠ 0 := by simp [isZero]

/-- A zero-extended immediate is the same number. -/
@[simp] theorem toNat_zextAddr (imm : BitVec 16) : (zextAddr imm).toNat = imm.toNat := by
  have := imm.isLt
  simp only [zextAddr, BitVec.toNat_setWidth]
  omega

/-- A branch goes to the number its immediate writes. -/
@[simp] theorem branchAddr_eq (imm : BitVec 16) : branchAddr imm = imm.toNat := rfl

/-- A branch target fits every pc of at least 16 bits. -/
theorem branchAddr_lt (imm : BitVec 16) {width : Nat} (h : 16 ≤ width) : branchAddr imm < 2 ^ width :=
  lt_of_lt_of_le imm.isLt (Nat.pow_le_pow_right (by decide) h)

/-! ### Participation -/

/-- A bit of the write mask: set exactly in the bytes that participate (R69). -/
theorem getLsbD_mask (ppp : Participation) {i : Nat} (hi : i < 64) : ppp.mask.getLsbD i = ppp.part (7 - i / 8) := by
  cases ppp <;> (revert i; decide)

/-- A bit of a merged register. -/
theorem getLsbD_merge (ppp : Participation) (old v : DWord) {i : Nat} (hi : i < 64) :
    (ppp.merge old v).getLsbD i = if ppp.part (7 - i / 8) then v.getLsbD i else old.getLsbD i := by
  simp only [Participation.merge, BitVec.getLsbD_or, BitVec.getLsbD_and, BitVec.getLsbD_not, getLsbD_mask ppp hi, hi]
  cases ppp.part (7 - i / 8) <;> simp

/-- The merge of a result with itself as the old value. -/
@[simp] theorem merge_self (ppp : Participation) (v : DWord) : ppp.merge v v = v := by
  apply BitVec.eq_of_getLsbD_eq
  intro i hi
  rw [getLsbD_merge ppp v v hi]
  split <;> rfl

/-- Under PPP = 000 nothing of the old value is left. -/
@[simp] theorem merge_all (old v : DWord) : Participation.all.merge old v = v := by
  apply BitVec.eq_of_getLsbD_eq
  intro i hi
  rw [getLsbD_merge _ _ _ hi]; rfl

end Sys2Proof
end

