-- ==== Sys2Proof/Laws/State.lean ====
section
/-! SUPPORT. What each update of the state leaves in each field: one lemma per field per update. -/

namespace Sys2Proof.Machine

/-! ### The pc -/

@[simp] theorem State.advance_regs (s : State) : s.advance.regs = s.regs := rfl
@[simp] theorem State.advance_pc (s : State) : s.advance.pc = (s.pc + s.params.pcUnit.stride) % 2 ^ s.params.pcWidth := rfl
@[simp] theorem State.advance_dmem (s : State) : s.advance.dmem = s.dmem := rfl
@[simp] theorem State.advance_imem (s : State) : s.advance.imem = s.imem := rfl
@[simp] theorem State.advance_params (s : State) : s.advance.params = s.params := rfl

/-! ### Registers -/

@[simp] theorem State.writeReg_pc (s : State) (r : Reg) (v : DWord) : (s.writeReg r v).pc = s.pc := by
  unfold State.writeReg; split <;> rfl
@[simp] theorem State.writeReg_dmem (s : State) (r : Reg) (v : DWord) : (s.writeReg r v).dmem = s.dmem := by
  unfold State.writeReg; split <;> rfl
@[simp] theorem State.writeReg_imem (s : State) (r : Reg) (v : DWord) : (s.writeReg r v).imem = s.imem := by
  unfold State.writeReg; split <;> rfl
@[simp] theorem State.writeReg_params (s : State) (r : Reg) (v : DWord) : (s.writeReg r v).params = s.params := by
  unfold State.writeReg; split <;> rfl

@[simp] theorem State.writeMasked_pc (s : State) (d : Reg) (p : Participation) (v : DWord) :
    (s.writeMasked d p v).pc = s.pc := State.writeReg_pc ..
@[simp] theorem State.writeMasked_dmem (s : State) (d : Reg) (p : Participation) (v : DWord) :
    (s.writeMasked d p v).dmem = s.dmem := State.writeReg_dmem ..
@[simp] theorem State.writeMasked_imem (s : State) (d : Reg) (p : Participation) (v : DWord) :
    (s.writeMasked d p v).imem = s.imem := State.writeReg_imem ..
@[simp] theorem State.writeMasked_params (s : State) (d : Reg) (p : Participation) (v : DWord) :
    (s.writeMasked d p v).params = s.params := State.writeReg_params ..

/-! ### Placing an instruction -/

@[simp] theorem State.placeInsn_regs (s : State) (a : Nat) (w : Insn) : (s.placeInsn a w).regs = s.regs := rfl
@[simp] theorem State.placeInsn_pc (s : State) (a : Nat) (w : Insn) : (s.placeInsn a w).pc = s.pc := rfl
@[simp] theorem State.placeInsn_dmem (s : State) (a : Nat) (w : Insn) : (s.placeInsn a w).dmem = s.dmem := rfl
@[simp] theorem State.placeInsn_params (s : State) (a : Nat) (w : Insn) : (s.placeInsn a w).params = s.params := rfl

/-! ### Reset -/

@[simp] theorem State.resetWith_pc (p : Config.Params) (im dm : Memory) : (State.resetWith p im dm).pc = p.pcReset := rfl
@[simp] theorem State.resetWith_dmem (p : Config.Params) (im dm : Memory) : (State.resetWith p im dm).dmem = dm := rfl
@[simp] theorem State.resetWith_imem (p : Config.Params) (im dm : Memory) : (State.resetWith p im dm).imem = im := rfl
@[simp] theorem State.resetWith_params (p : Config.Params) (im dm : Memory) : (State.resetWith p im dm).params = p := rfl

/-! ### What reads depend on -/

/-- A register's reading depends on the register-file and the parameters alone. -/
theorem State.readReg_congr {s t : State} (hr : t.regs = s.regs) (hp : t.params = s.params) (r : Reg) :
    t.readReg r = s.readReg r := by
  simp only [State.readReg, hr, hp]

/-- Data memory's readings depend on its cells alone. -/
theorem State.dmemByte_congr {s t : State} (h : t.dmem = s.dmem) (a : Nat) : t.dmemByte a = s.dmemByte a := by
  simp only [State.dmemByte, h]

/-- A fetch depends on the image and the parameters alone. -/
theorem State.fetchWord_congr {s t : State} (hi : t.imem = s.imem) (hp : t.params = s.params) (a : Nat) :
    t.fetchWord a = s.fetchWord a := by
  simp only [State.fetchWord, State.imageOffset, hi, hp]

@[simp] theorem State.advance_readReg (s : State) (r : Reg) : s.advance.readReg r = s.readReg r := rfl
@[simp] theorem State.advance_dmemByte (s : State) (a : Nat) : s.advance.dmemByte a = s.dmemByte a := rfl
@[simp] theorem State.advance_dmemWord (s : State) (a : Addr) : s.advance.dmemWord a = s.dmemWord a := rfl
@[simp] theorem State.advance_fetchWord (s : State) (a : Nat) : s.advance.fetchWord a = s.fetchWord a := rfl

/-! ### Another width of the pc -/

@[simp] theorem withPcWidth_regs (s : State) (n : Nat) : (Safety.withPcWidth s n).regs = s.regs := rfl
@[simp] theorem withPcWidth_pc (s : State) (n : Nat) : (Safety.withPcWidth s n).pc = s.pc := rfl
@[simp] theorem withPcWidth_dmem (s : State) (n : Nat) : (Safety.withPcWidth s n).dmem = s.dmem := rfl
@[simp] theorem withPcWidth_imem (s : State) (n : Nat) : (Safety.withPcWidth s n).imem = s.imem := rfl
@[simp] theorem withPcWidth_pcWidth (s : State) (n : Nat) : (Safety.withPcWidth s n).params.pcWidth = n := rfl
@[simp] theorem withPcWidth_pcUnit (s : State) (n : Nat) :
    (Safety.withPcWidth s n).params.pcUnit = s.params.pcUnit := rfl
@[simp] theorem withPcWidth_readReg (s : State) (n : Nat) (r : Reg) :
    (Safety.withPcWidth s n).readReg r = s.readReg r := rfl
@[simp] theorem withPcWidth_dmemWord (s : State) (n : Nat) (a : Addr) :
    (Safety.withPcWidth s n).dmemWord a = s.dmemWord a := rfl
@[simp] theorem withPcWidth_fetchWord (s : State) (n a : Nat) :
    (Safety.withPcWidth s n).fetchWord a = s.fetchWord a := rfl

end Sys2Proof.Machine
end

