-- ==== Sys2Proof/Laws/Ops.lean ====
section
/-! SUPPORT. What each shared operation can do, said once: proofs cite these instead of unfolding the operation. -/

namespace Sys2Proof.Machine

/-! ### Registers -/

/-- What a register holds after a write: the value, but for a hardwired register 0. -/
theorem State.readReg_writeReg (s : State) (d r : Reg) (v : DWord) :
    (s.writeReg d v).readReg r =
      if r = d ∧ ¬ (s.params.r0HardwiredZero = true ∧ d = 0) then v else s.readReg r := by
  unfold State.writeReg
  by_cases hz : s.params.r0HardwiredZero = true ∧ d = 0
  · rw [if_pos (by simpa using hz), if_neg (by simp [hz])]
  · rw [if_neg (by simpa using hz)]
    by_cases hr : r = d
    · subst hr
      simp only [State.readReg]
      rw [if_neg (by simpa using hz), if_pos ⟨trivial, hz⟩]
      simp
    · rw [if_neg (fun h => hr h.1)]
      have hne : d.val ≠ r.val := fun h => hr (Fin.ext h.symm)
      simp only [State.readReg]
      congr 1
      simp [hne]

/-- A hardwired register 0 reads as 0. -/
theorem State.readReg_hardwired {s : State} {r : Reg} (h : s.params.r0HardwiredZero = true ∧ r = 0) :
    s.readReg r = 0 := by
  simp [State.readReg, h.1, h.2]

/-- What a register holds after a masked write: the merged value, but for a hardwired register 0. -/
theorem State.readReg_writeMasked (s : State) (d r : Reg) (p : Participation) (v : DWord) :
    (s.writeMasked d p v).readReg r =
      if r = d ∧ ¬ (s.params.r0HardwiredZero = true ∧ d = 0) then p.merge (s.readReg d) v else s.readReg r :=
  State.readReg_writeReg ..

/-! ### The pc -/

/-- The advanced pc is a number of `PC_WIDTH` bits. -/
theorem State.advance_pc_lt (s : State) : s.advance.pc < 2 ^ s.params.pcWidth := Nat.mod_lt _ (Nat.two_pow_pos _)

/-- An advance that stays below 2^16 does not wrap at a width of at least 16 bits. -/
theorem State.advance_pc_of_lt {s : State} (hw : 16 ≤ s.params.pcWidth) (h : s.pc + s.params.pcUnit.stride < 2 ^ 16) :
    s.advance.pc = s.pc + s.params.pcUnit.stride :=
  Nat.mod_eq_of_lt (lt_of_lt_of_le h (Nat.pow_le_pow_right (by decide) hw))

/-- A branch target is one of the addresses 0 to 65535. -/
theorem branchTarget_lt {i : Instr} {a : Nat} (h : i.branchTarget = some a) : a < 2 ^ 16 := by
  cases i <;> simp only [Instr.branchTarget, reduceCtorEq, Option.some.injEq] at h
  all_goals exact h ▸ BitVec.isLt _

/-- A jump that has a step goes to its target, which is a multiple of the stride. -/
theorem State.jump_next {s t : State} {a : Nat} (h : s.jump a = .next t) :
    a % s.params.pcUnit.stride = 0 ∧ t = { s with pc := a } := by
  unfold State.jump at h
  split at h
  · injection h with h; exact ⟨‹_›, h.symm⟩
  · cases h

/-- A jump that has no step is to a misaligned target. -/
theorem State.jump_fault {s : State} {a : Nat} {f : Fault} (h : s.jump a = .fault f) :
    a % s.params.pcUnit.stride ≠ 0 ∧ f = .misalignedTarget := by
  unfold State.jump at h
  split at h
  · cases h
  · injection h with h; exact ⟨‹_›, h.symm⟩

/-- A conditional branch that has a step advances or jumps. -/
theorem State.branchIf_next {s t : State} {c : Bool} {a : Nat} (h : s.branchIf c a = .next t) :
    (c = false ∧ t = s.advance) ∨
      (c = true ∧ a % s.params.pcUnit.stride = 0 ∧ t = { s with pc := a }) := by
  unfold State.branchIf at h
  cases c
  · injection h with h; exact .inl ⟨rfl, h.symm⟩
  · exact .inr ⟨rfl, State.jump_next h⟩

/-! ### Data memory -/

/-- A read that has a value gives the word, at an address that exists. -/
theorem State.memRead_ok {s : State} {ea : Addr} {v : DWord} (h : s.memRead ea = .ok v) :
    ea.toNat < s.params.dmemWords ∧ v = s.dmemWord ea := by
  unfold State.memRead at h
  split at h
  · injection h with h; exact ⟨‹_›, h.symm⟩
  · cases h

/-- A write that has a result replaces the word's eight bytes, at an address that exists. -/
theorem State.memWrite_ok {s t : State} {ea : Addr} {v : DWord} (h : s.memWrite ea v = .ok t) :
    ea.toNat < s.params.dmemWords ∧ t = { s with dmem := s.dmem.writeBytes (8 * ea.toNat) 8 (byteOf v) } := by
  unfold State.memWrite at h
  split at h
  · injection h with h; exact ⟨‹_›, h.symm⟩
  · cases h

/-- A byte of data memory after a write of a word. -/
theorem State.dmemByte_writeBytes (s : State) (base n a : Nat) (f : Nat → Byte) :
    ({ s with dmem := s.dmem.writeBytes base n f } : State).dmemByte a =
      if base ≤ a ∧ a < base + n then f (a - base) else s.dmemByte a := by
  simp only [State.dmemByte, Memory.lookup_writeBytes]
  split <;> rfl

/-- A byte of a word of data memory. -/
theorem State.subfield_dmemWord (s : State) (ea : Addr) {j : Nat} (hj : j < 8) :
    subfield 8 (s.dmemWord ea) j = s.dmemByte (8 * ea.toNat + j) :=
  subfield_pack (by omega) (by rfl) _ hj

/-! ### Instruction memory -/

/-- A fetch after a word has been placed, at the same aligned address. -/
theorem State.fetchWord_placeInsn_same (s : State) (a : Nat) (w : Insn) (h : a % s.params.pcUnit.stride = 0) :
    (s.placeInsn a w).fetchWord a = some w := by
  have hoff : (s.placeInsn a w).imageOffset a = s.imageOffset a := rfl
  have hl : ∀ x, (s.placeInsn a w).imem.lookup x =
      if s.imageOffset a ≤ x ∧ x < s.imageOffset a + 4 then some (byteOf w (x - s.imageOffset a)) else s.imem.lookup x :=
    fun x => Memory.lookup_writeBytes ..
  unfold State.fetchWord
  rw [State.placeInsn_params, if_pos h, hoff]
  simp [hl]

/-! ### One instruction and one step -/

/-- All that an instruction can do when it has a step: advance; write its register; store its word; or jump. -/
theorem exec_next_cases {i : Instr} {s t : State} (h : exec i s = .next t) :
    t = s.advance ∨
    (∃ d v, i.writes = some d ∧ t = (s.writeReg d v).advance) ∨
    (∃ (ea : Addr) (v : DWord), i.stores = some ea ∧ ea.toNat < s.params.dmemWords ∧
      t = State.advance { s with dmem := s.dmem.writeBytes (8 * ea.toNat) 8 (byteOf v) }) ∨
    (∃ a, i.branchTarget = some a ∧ a % s.params.pcUnit.stride = 0 ∧ t = { s with pc := a }) := by
  have commit {d p v} (hw : i.writes = some d) (hc : s.commit d p v = .next t) :
      ∃ d v, i.writes = some d ∧ t = (s.writeReg d v).advance := by
    injection hc with hc; exact ⟨d, _, hw, hc.symm⟩
  have products {d p ww v} (hw : i.writes = if ww.multiplies then some d else none)
      (hc : s.commitProducts d p ww v = .next t) :
      t = s.advance ∨ ∃ d v, i.writes = some d ∧ t = (s.writeReg d v).advance := by
    unfold State.commitProducts at hc
    split at hc
    · exact .inr (commit (hw.trans (if_pos ‹_›)) hc)
    · injection hc with hc; exact .inl hc.symm
  cases i with
  | vand | vor | vxor | vnot | vmov | vadd | vsub => exact .inr (.inl (commit rfl h))
  | vrtth | vsll | vslli | vsrl | vsrli | vsra | vsrai => exact .inr (.inl (commit rfl h))
  | vmuleu | vmulou | vsqeu | vsqou => exact (products rfl h).imp id .inl
  | vld rd imm =>
    simp only [exec, execVld] at h
    split at h
    · injection h with h; exact .inr (.inl ⟨rd, _, rfl, h.symm⟩)
    · cases h
  | vsd rs imm =>
    simp only [exec, execVsd] at h
    split at h
    · rename_i u hu
      obtain ⟨hlt, rfl⟩ := State.memWrite_ok hu
      injection h with h; exact .inr (.inr (.inl ⟨_, _, rfl, hlt, h.symm⟩))
    · cases h
  | vbez rd imm =>
    rcases State.branchIf_next h with ⟨_, rfl⟩ | ⟨_, ha, rfl⟩
    · exact .inl rfl
    · exact .inr (.inr (.inr ⟨_, rfl, ha, rfl⟩))
  | vbnez rd imm =>
    rcases State.branchIf_next h with ⟨_, rfl⟩ | ⟨_, ha, rfl⟩
    · exact .inl rfl
    · exact .inr (.inr (.inr ⟨_, rfl, ha, rfl⟩))
  | vnop => injection h with h; exact .inl h.symm

/-- All that a step can do when there is one: advance over an illegal word, or perform the decoded instruction. -/
theorem step_next_cases {s t : State} (h : step s = .next t) :
    ∃ w, s.fetchWord s.pc = some w ∧
      ((∃ r, decode w = .error r ∧ t = s.advance) ∨ ∃ i, decode w = .ok i ∧ exec i s = .next t) := by
  unfold step at h
  split at h
  · cases h
  · rename_i w hw
    refine ⟨w, hw, ?_⟩
    split at h
    · exact .inr ⟨_, ‹_›, h⟩
    · injection h with h; exact .inl ⟨_, ‹_›, h.symm⟩

end Sys2Proof.Machine
end

