-- ==== Sys2Proof/Laws/PerInstr.lean ====
section
/-! SUPPORT. Statements made per instruction: the encoding of an instruction lies in its row of the opcode table. -/

namespace Sys2Proof.Laws.EncodingInRow

/-- The instruction's word has the opcode, the function and the fixed zeros of its row (R75). -/
def Statement (i : Instr) : Prop := encode i &&& i.row.mask = i.row.bits

theorem vand (rd ra rb : Reg) (ppp : Participation) (ww : Width) : Statement (.vand rd ra rb ppp ww) :=
  encodeR_and ..
theorem vor (rd ra rb : Reg) (ppp : Participation) (ww : Width) : Statement (.vor rd ra rb ppp ww) :=
  encodeR_and ..
theorem vxor (rd ra rb : Reg) (ppp : Participation) (ww : Width) : Statement (.vxor rd ra rb ppp ww) :=
  encodeR_and ..
theorem vnot (rd ra : Reg) (ppp : Participation) (ww : Width) : Statement (.vnot rd ra ppp ww) :=
  encodeR_and_oneSource ..
theorem vmov (rd ra : Reg) (ppp : Participation) (ww : Width) : Statement (.vmov rd ra ppp ww) :=
  encodeR_and_oneSource ..
theorem vadd (rd ra rb : Reg) (ppp : Participation) (ww : Width) : Statement (.vadd rd ra rb ppp ww) :=
  encodeR_and ..
theorem vsub (rd ra rb : Reg) (ppp : Participation) (ww : Width) : Statement (.vsub rd ra rb ppp ww) :=
  encodeR_and ..
theorem vmuleu (rd ra rb : Reg) (ppp : Participation) (ww : Width) : Statement (.vmuleu rd ra rb ppp ww) :=
  encodeR_and ..
theorem vmulou (rd ra rb : Reg) (ppp : Participation) (ww : Width) : Statement (.vmulou rd ra rb ppp ww) :=
  encodeR_and ..
theorem vsqeu (rd ra : Reg) (ppp : Participation) (ww : Width) : Statement (.vsqeu rd ra ppp ww) :=
  encodeR_and_oneSource ..
theorem vsqou (rd ra : Reg) (ppp : Participation) (ww : Width) : Statement (.vsqou rd ra ppp ww) :=
  encodeR_and_oneSource ..
theorem vrtth (rd ra : Reg) (ppp : Participation) (ww : Width) : Statement (.vrtth rd ra ppp ww) :=
  encodeR_and_oneSource ..
theorem vsll (rd ra rb : Reg) (ppp : Participation) (ww : Width) : Statement (.vsll rd ra rb ppp ww) :=
  encodeR_and ..
theorem vslli (rd ra : Reg) (sh : BitVec 5) (ppp : Participation) (ww : Width) :
    Statement (.vslli rd ra sh ppp ww) := encodeR_and ..
theorem vsrl (rd ra rb : Reg) (ppp : Participation) (ww : Width) : Statement (.vsrl rd ra rb ppp ww) :=
  encodeR_and ..
theorem vsrli (rd ra : Reg) (sh : BitVec 5) (ppp : Participation) (ww : Width) :
    Statement (.vsrli rd ra sh ppp ww) := encodeR_and ..
theorem vsra (rd ra rb : Reg) (ppp : Participation) (ww : Width) : Statement (.vsra rd ra rb ppp ww) :=
  encodeR_and ..
theorem vsrai (rd ra : Reg) (sh : BitVec 5) (ppp : Participation) (ww : Width) :
    Statement (.vsrai rd ra sh ppp ww) := encodeR_and ..
theorem vld (r : Reg) (imm : BitVec 16) : Statement (.vld r imm) := encodeM_and ..
theorem vsd (r : Reg) (imm : BitVec 16) : Statement (.vsd r imm) := encodeM_and ..
theorem vbez (r : Reg) (imm : BitVec 16) : Statement (.vbez r imm) := encodeM_and ..
theorem vbnez (r : Reg) (imm : BitVec 16) : Statement (.vbnez r imm) := encodeM_and ..
theorem vnop : Statement .vnop := rfl

end Sys2Proof.Laws.EncodingInRow
end

