-- ==== Sys2Proof/Tests/Slice0.lean ====
section
/-! SUPPORT. Tests of the model. Expected values come from the spec: the vectors of 95_test_vectors.md where a comment names
one of its sections, else the rule a comment names. The last part shows, for every obligation that has hypotheses, a concrete
state and operands that meet all of them. -/

namespace Sys2Proof.Tests

open Sys2Proof.Machine
open Sys2Proof.Safety

/-! ### Helpers -/

/-- The machine after reset with registers 1, 2 and 3 set. -/
def start (a b c : DWord) : State :=
  { State.reset with regs := ((State.reset.regs.set 1 a).set 2 b).set 3 c }

/-- `start` with other parameters. -/
def startWith (p : Config.Params) (a b c : DWord) : State := { start a b c with params := p }

/-- The parameters with the pc counting bytes (D3). -/
def bytePc : Config.Params := { Config.gold with pcUnit := .byte }

/-- A pc of 16 bits that counts bytes, reset to its last aligned address (D2, D3). -/
def lastByteAddress : Config.Params := { bytePc with pcWidth := 16, pcReset := 0xFFFC }

/-- The parameters with a data memory of 16 words (R42). -/
def smallMemory : Config.Params := { Config.gold with dmemWords := 16 }

/-- The parameters with register 0 hardwired (R21). -/
def zeroHardwired : Config.Params := { Config.gold with r0HardwiredZero := true }

/-- The state after one instruction, or the state itself where there is none. -/
def after (i : Instr) (s : State) : State :=
  match exec i s with
  | .next t => t
  | .fault _ => s
  | .refused _ => s

/-- Register 1 and the pc after one instruction. -/
def result (i : Instr) (s : State) : Option (DWord × Nat) :=
  match exec i s with
  | .next t => some (t.readReg 1, t.pc)
  | .fault _ => none
  | .refused _ => none

/-- The constants A, B, Dold, N, SB, SB2, A2, B2 of 95_test_vectors.md section 2. -/
def valA : DWord := 0x0123456789ABCDEF
def valB : DWord := 0xFEDCBA9876543210
def valDold : DWord := 0x5555555555555555
def valN : DWord := 0x80F0C3FF81234567
def valSB : DWord := 0x0102030405060708
def valSB2 : DWord := 0x00FF001F003F0040
def valA2 : DWord := 0xFFFF0001FFFFFFFF
def valB2 : DWord := 0x0101FFFF00000001

/-! ### WellFormed refuses what R67 excludes -/

theorem test_vmuleu_double_is_ill_formed : WellFormed (.vmuleu 1 2 3 .all .d) = false := by decide
theorem test_vmulou_double_is_ill_formed : WellFormed (.vmulou 1 2 3 .all .d) = false := by decide
theorem test_vsqeu_double_is_ill_formed : WellFormed (.vsqeu 1 2 .all .d) = false := by decide
theorem test_vsqou_double_is_ill_formed : WellFormed (.vsqou 1 2 .all .d) = false := by decide
theorem test_vmuleu_word_is_well_formed : WellFormed (.vmuleu 1 2 3 .all .w) = true := by decide

/-! ### Decoding of words written out bit by bit (R61, R62, R63, R75; section 2.1) -/

theorem test_decode_vand : decode 0b101010_00001_00010_00011_000_10_000001 = .ok (.vand 1 2 3 .all .w) := by decide
theorem test_decode_vor : decode 0b101010_00100_00101_00110_001_00_000010 = .ok (.vor 4 5 6 .upper .b) := by decide
theorem test_decode_vxor : decode 0b101010_00001_00010_00011_010_01_000011 = .ok (.vxor 1 2 3 .lower .h) := by decide
theorem test_decode_vnot : decode 0b101010_00001_00010_00000_011_11_000100 = .ok (.vnot 1 2 .even .d) := by decide
theorem test_decode_vmov : decode 0b101010_00001_00010_00000_100_10_000101 = .ok (.vmov 1 2 .odd .w) := by decide
theorem test_decode_vadd : decode 0b101010_00001_00010_00011_001_10_000110 = .ok (.vadd 1 2 3 .upper .w) := by decide
theorem test_decode_vsub : decode 0b101010_10000_01000_11111_001_10_000111 = .ok (.vsub 16 8 31 .upper .w) := by decide
theorem test_decode_vmuleu : decode 0b101010_00001_00010_00011_000_10_001000 = .ok (.vmuleu 1 2 3 .all .w) := by decide
theorem test_decode_vmulou : decode 0b101010_00001_00010_00011_000_00_001001 = .ok (.vmulou 1 2 3 .all .b) := by decide
theorem test_decode_vsqeu : decode 0b101010_00001_00010_00000_010_10_001010 = .ok (.vsqeu 1 2 .lower .w) := by decide
theorem test_decode_vsqou : decode 0b101010_00001_00010_00000_010_01_001011 = .ok (.vsqou 1 2 .lower .h) := by decide
theorem test_decode_vrtth : decode 0b101010_00001_00010_00000_000_11_001100 = .ok (.vrtth 1 2 .all .d) := by decide
theorem test_decode_vsll : decode 0b101010_00001_00010_00011_001_10_001101 = .ok (.vsll 1 2 3 .upper .w) := by decide
theorem test_decode_vslli : decode 0b101010_11111_11110_11111_100_11_001110 = .ok (.vslli 31 30 31 .odd .d) := by decide
theorem test_decode_vsrl : decode 0b101010_00001_00010_00011_001_00_001111 = .ok (.vsrl 1 2 3 .upper .b) := by decide
theorem test_decode_vsrli : decode 0b101010_00001_00010_10000_000_01_010000 = .ok (.vsrli 1 2 16 .all .h) := by decide
theorem test_decode_vsra : decode 0b101010_00001_00010_00011_001_10_010001 = .ok (.vsra 1 2 3 .upper .w) := by decide
theorem test_decode_vsrai : decode 0b101010_00000_00000_00000_011_00_010010 = .ok (.vsrai 0 0 0 .even .b) := by decide
theorem test_decode_vld : decode 0b100000_11111_00000_1111111111111111 = .ok (.vld 31 0xFFFF) := by decide
theorem test_decode_vsd : decode 0b100001_00001_00000_0000000000010000 = .ok (.vsd 1 0x10) := by decide
theorem test_decode_vbez : decode 0b100010_00001_00000_0000000000000101 = .ok (.vbez 1 5) := by decide
theorem test_decode_vbnez : decode 0b100011_11111_00000_1111111111111111 = .ok (.vbnez 31 0xFFFF) := by decide
theorem test_decode_vnop : decode 0b111100_00000000000000000000000000 = .ok .vnop := by decide

/-! Illegal words, one for each reason (R76, R77; section 2.1), and the words beside them that are legal. -/

theorem test_decode_zero_word : decode 0x00000000 = .error .unlistedOpcode := by decide
theorem test_decode_opcode_after_vbnez : decode 0x90000000 = .error .unlistedOpcode := by decide
theorem test_decode_near_vnop : decode 0xF0000001 = .error .notExactlyVnop := by decide
theorem test_decode_function_0 : decode 0xA8221880 = .error .unlistedFunction := by decide
theorem test_decode_function_19 : decode 0xA8221893 = .error .unlistedFunction := by decide
theorem test_decode_function_18 : decode 0xA8221892 = .ok (.vsrai 1 2 3 .all .w) := by decide
theorem test_decode_ppp_101 : decode 0xA8221D81 = .error .reservedParticipation := by decide
theorem test_decode_ppp_100 : decode 0xA8221C81 = .ok (.vand 1 2 3 .odd .w) := by decide
theorem test_decode_vmuleu_double : decode 0xA82218C8 = .error .unsupportedWidth := by decide
theorem test_decode_vand_double : decode 0xA82218C1 = .ok (.vand 1 2 3 .all .d) := by decide
theorem test_decode_vnot_with_rb : decode 0xA8221884 = .error .nonzeroSecondSource := by decide
theorem test_decode_vbnez_with_ra : decode 0x8C3F0000 = .error .nonzeroMField := by decide

/-- The table's numbering: bit 0 is the least significant bit of the 32-bit number. -/
theorem test_decodeTableWord : decodeTableWord 32 0x84200010 = some (.vsd 1 0x10) := by decide

theorem test_decodeTableWord_illegal : decodeTableWord 32 0x00000000 = none := by decide

/-! ### One instruction, register 1 the destination, 2 and 3 the sources (sections 2.2 to 2.9) -/

theorem test_vand_even_bytes :
    result (.vand 1 2 3 .even .b) (start valDold (BitVec.allOnes 64) (BitVec.allOnes 64)) =
      some (0xFF55FF55FF55FF55, 1) := by decide
theorem test_vand_not_or : result (.vand 1 2 3 .all .w) (start valDold valA valB) = some (0, 1) := by decide
theorem test_vor_upper : result (.vor 1 2 3 .upper .h) (start valDold valA valB) = some (0xFFFFFFFF55555555, 1) := by decide
theorem test_vor_zero : result (.vor 1 2 3 .all .b) (start valDold valA 0) = some (valA, 1) := by decide
theorem test_vxor_odd : result (.vxor 1 2 3 .odd .w) (start valDold valA valB) = some (0x55FF55FF55FF55FF, 1) := by decide
theorem test_vxor_in_place : result (.vxor 1 1 1 .all .w) (start valA 0 0) = some (0, 1) := by decide
theorem test_vnot_odd : result (.vnot 1 2 .odd .w) (start valDold valA 0) = some (0x55DC559855545510, 1) := by decide
theorem test_vnot_in_place : result (.vnot 1 1 .even .b) (start valA 0 0) = some (0xFE23BA6776AB32EF, 1) := by decide
theorem test_vmov_lower : result (.vmov 1 2 .lower .w) (start valDold valA 0) = some (0x5555555589ABCDEF, 1) := by decide
theorem test_vmov_even : result (.vmov 1 2 .even .d) (start valDold valA 0) = some (0x015545558955CD55, 1) := by decide
theorem test_vadd_half_words :
    result (.vadd 1 2 3 .all .h) (start valDold valA2 valB2) = some (0x01000000FFFF0000, 1) := by decide
theorem test_vadd_in_place : result (.vadd 1 1 1 .all .b) (start valA 0 0) = some (0x02468ACE12569ADE, 1) := by decide
theorem test_vsub_bytes : result (.vsub 1 2 3 .all .b) (start valDold valA valB) = some (0x03478BCF13579BDF, 1) := by decide
theorem test_vsub_odd_half_words :
    result (.vsub 1 2 3 .odd .h) (start valDold valA2 valB2) = some (0x55FE550255FF55FE, 1) := by decide
theorem test_vmuleu_bytes :
    result (.vmuleu 1 2 3 .all .b) (start valDold valA valB) = some (0x00FE32223F26280A, 1) := by decide
/-- Section 1.2, the source's remark on half-words 0 and 2. -/
theorem test_vmuleu_half_words :
    result (.vmuleu 1 2 3 .all .h) (start valDold 0x0002FFFF0003FFFF 0x0005FFFF0007FFFF) =
      some (0x0000000A00000015, 1) := by decide
theorem test_vmulou_odd_bytes :
    result (.vmulou 1 2 3 .odd .b) (start valDold valA valB) = some (0x55145528551C55F0, 1) := by decide
theorem test_vmulou_words :
    result (.vmulou 1 2 3 .all .w) (start valDold valA valB) = some (0x3FA27837E5618CF0, 1) := by decide
theorem test_vsqeu_lower_words :
    result (.vsqeu 1 2 .lower .w) (start valDold valA 0) = some (0x55555555DAFAAF71, 1) := by decide
theorem test_vsqeu_half_words :
    result (.vsqeu 1 2 .all .h) (start valDold valA 0) = some (0x00014AC94A087839, 1) := by decide
theorem test_vsqou_bytes : result (.vsqou 1 2 .all .b) (start valDold valA 0) = some (0x04C929717239DF21, 1) := by decide
theorem test_vsqou_lower_words :
    result (.vsqou 1 2 .lower .w) (start valDold valA 0) = some (0x5555555590F2A521, 1) := by decide
theorem test_vrtth_half_words :
    result (.vrtth 1 2 .even .h) (start valDold valA 0) = some (0x23556755AB55EF55, 1) := by decide
theorem test_vrtth_in_place : result (.vrtth 1 1 .all .d) (start valA 0 0) = some (0x89ABCDEF01234567, 1) := by decide
theorem test_vsll_amounts_wrap :
    result (.vsll 1 2 3 .all .b) (start valDold valN valSB2) = some (0x8000C38081804567, 1) := by decide
theorem test_vsll_in_place : result (.vsll 1 1 1 .all .b) (start valA 0 0) = some (0x0218A0801258A080, 1) := by decide
theorem test_vslli_amount_9 :
    result (.vslli 1 2 9 .all .b) (start valDold valA 0) = some (0x02468ACE12569ADE, 1) := by decide
theorem test_vslli_double_31 :
    result (.vslli 1 2 31 .all .d) (start valDold valA 0) = some (0xC4D5E6F780000000, 1) := by decide
theorem test_vsrl_odd_bytes :
    result (.vsrl 1 2 3 .odd .b) (start valDold valA valSB) = some (0x55085506550255EF, 1) := by decide
theorem test_vsrl_double_63 : result (.vsrl 1 2 3 .all .d) (start valDold valN 0x3F) = some (1, 1) := by decide
theorem test_vsrli_half_31 :
    result (.vsrli 1 2 31 .all .h) (start valDold valA 0) = some (0x0000000000010001, 1) := by decide
theorem test_vsrli_words_20 :
    result (.vsrli 1 2 20 .all .w) (start valDold valA 0) = some (0x000000120000089A, 1) := by decide
theorem test_vsra_half_words :
    result (.vsra 1 2 3 .all .h) (start valDold valN valSB) = some (0xE03CFC3FFE040045, 1) := by decide
theorem test_vsra_words_31 :
    result (.vsra 1 2 3 .all .w) (start valDold valN valSB2) = some (0xFFFFFFFF81234567, 1) := by decide
theorem test_vsrai_double_31 :
    result (.vsrai 1 2 31 .all .d) (start valDold valN 0) = some (0xFFFFFFFF01E187FF, 1) := by decide
theorem test_vsrai_in_place : result (.vsrai 1 1 4 .upper .w) (start valA 0 0) = some (0x0012345689ABCDEF, 1) := by decide

/-! Loads and stores (section 2.10). -/

/-- A state whose data memory holds A at word 16 and 7 at word 32768. -/
def loaded : State := { start 0 0 0 with dmem := dataImage [(16, valA), (32768, 7)] }

theorem test_vld : result (.vld 1 0x10) loaded = some (valA, 1) := by decide
theorem test_vld_address_is_zero_extended : result (.vld 1 0x8000) loaded = some (7, 1) := by decide
theorem test_vsd_then_vld : result (.vld 1 0xFFFF) (after (.vsd 2 0xFFFF) (start 0 valB 0)) = some (valB, 2) := by decide
theorem test_vsd_leaves_the_next_word : result (.vld 1 16) (after (.vsd 2 15) { loaded with pc := 4 }) = some (valA, 6) := by
  decide

/-! Branches, VNOP, illegal words (section 2.11). -/

theorem test_vbez_taken : result (.vbez 1 0xFFFF) (start 0 0 0) = some (0, 65535) := by decide
theorem test_vbez_tests_all_bits :
    result (.vbez 1 5) { start 0x0000000100000000 0 0 with pc := 2 } = some (0x0000000100000000, 3) := by decide
theorem test_vbnez_taken : result (.vbnez 1 2) { start 0x8000000000000000 0 0 with pc := 7 } =
    some (0x8000000000000000, 2) := by decide
theorem test_vbnez_not_taken : result (.vbnez 1 2) { start 0 0 0 with pc := 7 } = some (0, 8) := by decide
theorem test_vbez_byte_pc : result (.vbez 1 20) { startWith bytePc 0 0 0 with pc := 8 } = some (0, 20) := by decide
theorem test_vnop_byte_pc : result .vnop { startWith bytePc 0 0 0 with pc := 8 } = some (0, 12) := by decide
/-- The pc wraps at `PC_WIDTH` (R25, D20): at the default width it does not at 16 bits, at a width of 16 it does. -/
theorem test_pc_wraps :
    result .vnop { start 0 0 0 with pc := 0xFFFF } = some (0, 0x10000) ∧
    result .vnop { start 0 0 0 with pc := 0xFFFFFFFF } = some (0, 0) ∧
    result .vnop { startWith { Config.gold with pcWidth := 16 } 0 0 0 with pc := 0xFFFF } = some (0, 0) := by decide
theorem test_vnop : after .vnop { start valA valB valN with pc := 4 } = { start valA valB valN with pc := 5 } := by decide

/-- A hardwired register 0 drops what is written to it (R21; section 2.10). -/
theorem test_zero_register : (after (.vmov 0 2 .all .d) (startWith zeroHardwired 0 valA 0)).readReg 0 = 0 := by decide
theorem test_register_0_is_ordinary : (after (.vmov 0 2 .all .d) (start 0 valA 0)).readReg 0 = valA := by decide

/-! ### One step -/

theorem test_reset_has_no_step : step State.reset = .fault .runEnded := rfl

/-- Section 2.11: `vbez r1, 5`, as the first instruction after reset. -/
theorem test_step_after_reset :
    step (State.reset.withFetchWord 32 0x88200005) = .next { State.reset.withFetchWord 32 0x88200005 with pc := 5 } := rfl

/-- Section 2.11: the word has the shape of `vand r1, r2, r3` with PPP = 101. -/
theorem test_step_of_an_illegal_word :
    step ((start valA valB valN).withFetchWord 32 0xA8221D81) =
      .next { (start valA valB valN).withFetchWord 32 0xA8221D81 with pc := 1 } := rfl

/-! ### Assembly (R79 to R81; section 1.1) -/

theorem test_assemble_vandaw : assembleText "vandaw r1, r2, r3" = some (some (.vand 1 2 3 .all .w)) := by decide
theorem test_assemble_vsqeudw : assembleText "vsqeudw r1, r2" = some (some (.vsqeu 1 2 .lower .w)) := by decide
theorem test_assemble_vslliod : assembleText "vslliod r31, r30, 31" = some (some (.vslli 31 30 31 .odd .d)) := by decide
theorem test_assemble_vbneq : assembleText "vbneq r31, 0xFFFF # back" = some (some (.vbnez 31 0xFFFF)) := by decide
theorem test_assemble_no_double_multiply : assembleText "vmuleuad r1, r2, r3" = none := by decide

/-! ### Witnesses: for each obligation with hypotheses, a state and operands that meet them all -/

/-- Two states that differ in registers 1 and 3 and in data memory, and agree in register 2. -/
def left : State := start 5 valA 7
def right : State := { start 6 valA 8 with dmem := dataImage [(3, valB)] }

/-- The word 0 of data memory defined, VADD r1, r2, r3 placed at the pc. -/
def running : State :=
  { start 1 2 3 with dmem := dataImage [(0, valA)] }.withFetchWord 32 0xA8221806

/-- VNOP at the last address of a pc of 16 bits, register 0 hardwired. -/
def atTheTop : State :=
  { State.resetWith { zeroHardwired with pcWidth := 16, pcReset := 0xFFFF } [] [] with pc := 0xFFFF }.withFetchWord 32 0xF0000000

theorem witness_DecodeOfEncodeIsTheInstruction :
    WellFormed (.vsqou 31 0 .odd .w) = true ∧ WellFormed (.vslli 31 30 31 .odd .d) = true := by decide

theorem witness_EncodeOfDecodeIsTheWord :
    decode 0xABFEFCCE = .ok (.vslli 31 30 31 .odd .d) ∧ decode 0xF0000000 = .ok .vnop := by decide

/-- Each of the four kinds of illegal word, at the first values that are illegal. -/
theorem witness_IllegalWordsAreThoseListed :
    decode 0x90000000 = .error .unlistedOpcode ∧ decode 0xF0000001 = .error .notExactlyVnop ∧
    decode 0x80210010 = .error .nonzeroMField ∧ decode 0xA8221880 = .error .unlistedFunction ∧
    decode 0xA8221893 = .error .unlistedFunction ∧ decode 0xA8221D81 = .error .reservedParticipation ∧
    decode 0xA822088C = .error .nonzeroSecondSource ∧ decode 0xA82200CB = .error .unsupportedWidth := by decide

theorem witness_DecodedWordMatchesItsRow : decode 0x83E0FFFF = .ok (.vld 31 0xFFFF) := by decide

theorem witness_AssemblyReadsBack :
    WellFormed (.vmuleu 0 31 15 .lower .w) = true ∧ assemble (Instr.vmuleu 0 31 15 .lower .w).asm =
      some (.vmuleu 0 31 15 .lower .w) := by decide

/-- Both hardwirings; with register 0 hardwired, registers 0 and 1 fall under different clauses. -/
theorem witness_RegistersReadAsWritten :
    left.params.r0HardwiredZero = false ∧ (startWith zeroHardwired 1 2 3).params.r0HardwiredZero = true ∧
    (1 : Reg) ≠ 0 := by decide

theorem witness_MaskedWriteIsBytewise :
    ¬ Discards left 0 ∧ ¬ Discards (startWith zeroHardwired 1 2 3) 1 ∧ Discards (startWith zeroHardwired 1 2 3) 0 := by
  unfold Discards; decide

/-- The widest and the narrowest subfield, at the last index of each, and a combination on each side of the equivalence. -/
theorem witness_SubfieldIsWholeUnlessListed :
    64 * (0 + 1) ≤ 64 ∧ 8 * (7 + 1) ≤ 64 ∧ straddles .even 8 = false ∧ straddles .even 16 = true ∧
    straddles .upper 32 = false ∧ straddles .upper 64 = true := by decide

theorem witness_VxorWithItselfClears : exec (.vxor 3 2 2 .all .b) left = .next (after (.vxor 3 2 2 .all .b) left) := rfl

theorem witness_MultiplyGivesExactProducts : Width.w ≠ .d ∧ Width.b ≠ .d := by decide

theorem witness_SquareGivesExactSquares : Width.w ≠ .d ∧ Width.h ≠ .d := by decide

theorem witness_VrtthTwiceRestores :
    Participation.all = .all ∧ exec (.vrtth 2 2 .all .h) left = .next (after (.vrtth 2 2 .all .h) left) ∧
    exec (.vrtth 2 2 .all .h) (after (.vrtth 2 2 .all .h) left) =
      .next (after (.vrtth 2 2 .all .h) (after (.vrtth 2 2 .all .h) left)) := ⟨rfl, rfl, rfl⟩

theorem witness_ImmediateShiftAmountIsLowBits : (25 : BitVec 5) = 9 ∨ (25 : BitVec 5) = 17 ∨ (25 : BitVec 5) = 25 := by
  decide

/-- The last address of the memory, of the default size and of a smaller one. -/
theorem witness_VldLoadsTheWord :
    (0xFFFF : BitVec 16).toNat < left.params.dmemWords ∧
    (15 : BitVec 16).toNat < (startWith smallMemory 1 2 3).params.dmemWords := by decide

theorem witness_VsdStoresTheRegister :
    (0xFFFF : BitVec 16).toNat < left.params.dmemWords ∧
    (0 : BitVec 16).toNat < (startWith smallMemory 1 2 3).params.dmemWords := by decide

/-- A load and a store at the end of memory have a next state. -/
theorem test_last_word_completes :
    exec (.vld 31 0xFFFF) left = .next (after (.vld 31 0xFFFF) left) ∧
    exec (.vsd 31 0xFFFF) left = .next (after (.vsd 31 0xFFFF) left) := ⟨rfl, rfl⟩

theorem witness_LoadAfterStoreGivesTheStoredValue :
    exec (.vsd 2 5) left = .next (after (.vsd 2 5) left) ∧
    exec (.vld 1 5) (after (.vsd 2 5) left) = .next (after (.vld 1 5) (after (.vsd 2 5) left)) ∧ ¬ Discards left 1 :=
  ⟨rfl, rfl, fun h => by cases h.1⟩

theorem witness_StoreLeavesOtherWords :
    exec (.vsd 2 5) left = .next (after (.vsd 2 5) left) ∧ (6 : Addr) ≠ zextAddr 5 := ⟨rfl, by decide⟩

/-- The first address beyond a small memory and the last one in it, and the default size. -/
theorem witness_AccessSucceedsExactlyInRange :
    (startWith smallMemory 1 2 3).params.dmemWords ≤ (16 : BitVec 16).toNat ∧
    (15 : BitVec 16).toNat < (startWith smallMemory 1 2 3).params.dmemWords ∧ left.params.dmemWords = 65536 := by decide

/-- A taken branch in both units of the pc, and one not taken. -/
theorem witness_VbezBranchesOnZero :
    (start 0 valA 7).readReg 1 = 0 ∧ (0xFFFF : BitVec 16).toNat % left.params.pcUnit.stride = 0 ∧
    (startWith bytePc 0 2 3).readReg 1 = 0 ∧
    (20 : BitVec 16).toNat % (startWith bytePc 0 2 3).params.pcUnit.stride = 0 ∧
    (start 0x8000000000000000 0 0).readReg 1 ≠ 0 := by decide

theorem witness_VbnezBranchesOnNonzero :
    (start 0x0000000100000000 0 0).readReg 1 ≠ 0 ∧ (0 : BitVec 16).toNat % left.params.pcUnit.stride = 0 ∧
    (startWith bytePc 1 2 3).readReg 1 ≠ 0 ∧
    (0xFFFC : BitVec 16).toNat % (startWith bytePc 1 2 3).params.pcUnit.stride = 0 ∧
    (start 0 valA 7).readReg 1 = 0 := by decide

/-- With the pc counting bytes, targets 6 (misaligned) and 8 (aligned), for each branch; and the default unit. -/
theorem witness_TakenBranchIsStuckExactlyWhenMisaligned :
    (startWith bytePc 0 2 3).readReg 1 = 0 ∧ (startWith bytePc 0 2 3).readReg 2 ≠ 0 ∧
    (6 : BitVec 16).toNat % (startWith bytePc 0 2 3).params.pcUnit.stride ≠ 0 ∧
    (8 : BitVec 16).toNat % (startWith bytePc 0 2 3).params.pcUnit.stride = 0 ∧
    left.params.pcUnit = .instruction := by decide

theorem witness_VnopOnlyAdvances :
    fieldOpcode 0xF0000001 = 0b111100 ∧ (0xF0000001 : Insn) ≠ 0xF0000000 ∧
    (left.withFetchWord 32 0xF0000001).fetchWord (left.withFetchWord 32 0xF0000001).pc = some 0xF0000001 := by decide

theorem witness_StepRunsTheDecodedInstruction :
    running.fetchWord running.pc = some 0xA8221806 ∧ decode 0xA8221806 = .ok (.vadd 1 2 3 .all .b) := by decide

/-- The reset pc with the default unit, and the last aligned pc where it counts bytes. -/
theorem witness_PlacedInstructionRunsNext :
    WellFormed (.vsd 1 5) = true ∧ State.reset.pc % State.reset.params.pcUnit.stride = 0 ∧
    0xFFFFFFFC % (startWith bytePc 0 2 3).params.pcUnit.stride = 0 := by decide

theorem witness_IllegalWordOnlyAdvances :
    (left.withFetchWord 32 0).fetchWord (left.withFetchWord 32 0).pc = some 0 ∧
    decode 0 = .error .unlistedOpcode := by decide

/-- The run of a one-instruction program: not ended at 0, ended at 1. -/
theorem witness_RunEndsExactlyOutsideTheImage :
    running.fetchWord 0 ≠ none ∧ running.fetchWord 1 = none ∧ step { running with pc := 1 } = .fault .runEnded :=
  ⟨by decide, by decide, rfl⟩

theorem witness_EveryFetchedWordCompletes :
    65536 ≤ running.params.dmemWords ∧ running.params.pcUnit = .instruction ∧
    running.fetchWord running.pc = some 0xA8221806 := by decide

theorem witness_OnlyBranchesJump :
    exec (.vadd 1 2 3 .all .b) left = .next (after (.vadd 1 2 3 .all .b) left) ∧
    (Instr.vadd 1 2 3 .all .b).branchTarget = none ∧
    exec (.vbnez 1 0xFFFF) left = .next (after (.vbnez 1 0xFFFF) left) ∧
    (Instr.vbnez 1 0xFFFF).branchTarget = some 0xFFFF := ⟨rfl, rfl, rfl, rfl⟩

theorem witness_OnlyTheDestinationRegisterChanges :
    exec (.vnot 1 2 .even .w) left = .next (after (.vnot 1 2 .even .w) left) ∧
    (Instr.vnot 1 2 .even .w).writes ≠ some 2 := ⟨rfl, by decide⟩

theorem witness_OnlyVsdChangesDataMemory :
    running.fetchWord running.pc = some 0xA8221806 ∧ step running = .next (after (.vadd 1 2 3 .all .b) running) ∧
    ∀ r imm, decode 0xA8221806 ≠ .ok (.vsd r imm) := by
  refine ⟨by decide, rfl, fun r imm h => ?_⟩
  rw [show decode 0xA8221806 = .ok (.vadd 1 2 3 .all .b) from by decide] at h
  cases h

theorem witness_NoStepChangesTheProgram : step running = .next (after (.vadd 1 2 3 .all .b) running) := rfl

/-- The two states agree on what VNOT r3, r2 reads, and differ in what it does not read. -/
theorem witness_ResultDependsOnListedReadsOnly :
    left.pc = right.pc ∧ left.params = right.params ∧
    (∀ r ∈ (Instr.vnot 3 2 .all .d).reads, left.readReg r = right.readReg r) ∧
    (∀ a, (Instr.vnot 3 2 .all .d).loads = some a → left.dmemWord a = right.dmemWord a) ∧
    exec (.vnot 3 2 .all .d) left = .next (after (.vnot 3 2 .all .d) left) ∧ left.readReg 3 ≠ right.readReg 3 :=
  ⟨by decide, by decide, by decide, fun a h => (by cases h), rfl, by decide⟩

/-- The two states agree on byte 6, the one before the last, of every register, and differ in byte 7. -/
theorem witness_SubfieldsAreIsolated :
    (Instr.vadd 1 2 3 .all .b).laneWidth = some .b ∧ 6 < Width.b.count ∧ left.params = right.params ∧
    (∀ r, subfield Width.b.size (left.readReg r) 6 = subfield Width.b.size (right.readReg r) 6) ∧
    exec (.vadd 1 2 3 .all .b) left = .next (after (.vadd 1 2 3 .all .b) left) ∧
    exec (.vadd 1 2 3 .all .b) right = .next (after (.vadd 1 2 3 .all .b) right) ∧
    subfield 8 (left.readReg 1) 7 ≠ subfield 8 (right.readReg 1) 7 :=
  ⟨rfl, by decide, by decide, by decide, rfl, rfl, by decide⟩

theorem witness_StepKeepsTheInvariant :
    Inv running ∧ step running = .next (after (.vadd 1 2 3 .all .b) running) :=
  ⟨⟨by decide, by decide, by decide, by decide, by decide, by decide, by decide⟩, rfl⟩

/-- A hardwired register 0 and a pc at the top of the narrowest width, where its advance wraps. -/
theorem witness_StepKeepsTheInvariant_at_the_top :
    Inv atTheTop ∧ step atTheTop = .next (after .vnop atTheTop) ∧ (after .vnop atTheTop).pc = 0 :=
  ⟨⟨by decide, by decide, by decide, by decide, by decide, by decide, by decide⟩, rfl, rfl⟩

/-- The last byte of a small memory defined, and a pc of 16 bits reset to its last aligned byte address. -/
theorem witness_ResetHasTheInvariant :
    (dataImage [(15, valA)]).wf = true ∧ (∀ c ∈ dataImage [(15, valA)], c.1 < 8 * smallMemory.dmemWords) ∧
    16 ≤ lastByteAddress.pcWidth ∧ lastByteAddress.pcReset < 2 ^ lastByteAddress.pcWidth ∧
    lastByteAddress.pcReset % lastByteAddress.pcUnit.stride = 0 := by decide

theorem witness_ResetPlacesPcAndImages : (dataImage [(16, valA)]).lookup 135 = some 0xEF := by decide

/-- An address in the image, the first one after it, and a misaligned one where the pc counts bytes. -/
theorem witness_LoadedProgramIsFetched :
    (State.boot Config.gold [0xF0000000] []).fetchWord 0 = some 0xF0000000 ∧
    (State.boot Config.gold [0xF0000000] []).fetchWord 1 = none ∧
    (State.boot bytePc [0xF0000000, 0] []).fetchWord 4 = some 0 ∧
    (State.boot bytePc [0xF0000000, 0] []).fetchWord 2 = none := by decide

/-- A word with two entries, of which the earlier counts, and a word with none. -/
theorem witness_InitialDataIsInMemory :
    ([(3, valA), (3, valB)] : List (Addr × DWord)).lookup 3 = some valA ∧
    (State.boot Config.gold [] [(3, valA), (3, valB)]).dmemWord 3 = valA ∧
    ([(3, valA), (3, valB)] : List (Addr × DWord)).lookup 4 = none := by decide

theorem witness_DefaultHazardDistanceRefusesNothing : State.reset.params.hazardDistance = 0 := by decide

/-- With a positive `HAZARD_DISTANCE` a use of the result in the next instruction is refused (R197). -/
theorem test_hazard_is_refused :
    hazardFree 2 [] (State.boot { Config.gold with hazardDistance := 1 } [0xA8221806, 0xA8410806] []) = false ∧
    hazardFree 3 [] (State.boot { Config.gold with hazardDistance := 1 } [0xA8221806, 0xF0000000, 0xA8410806] []) = true := by
  decide

/-- A program of one instruction, at the default width and at the narrowest. -/
theorem witness_RunsDoNotDependOnPcWidth :
    16 ≤ running.params.pcWidth ∧ (16 : Nat) ≤ 16 ∧
    (∀ a, running.fetchWord a ≠ none → a + running.params.pcUnit.stride < 2 ^ 16) := by
  refine ⟨by decide, by decide, fun a h => ?_⟩
  by_contra hge
  have ha : 65535 ≤ a := by
    have : running.params.pcUnit.stride = 1 := rfl
    omega
  have hl : running.imem.lookup (running.imageOffset a) = none := by
    have hi : running.imem = Memory.writeBytes [] 0 4 (byteOf (0xA8221806 : Insn)) := rfl
    have ho : running.imageOffset a = a * 4 := rfl
    rw [hi, ho, Memory.lookup_writeBytes, if_neg (by omega)]
    rfl
  apply h
  unfold State.fetchWord
  rw [hl]
  split <;> rfl

end Sys2Proof.Tests
end

section
/-! PROOFS for the statements about registers, the pc, one step, reset and the host (10_state.md). First the rules that the
proofs share, in the order of the definitions they speak of, then the statements. -/

namespace Sys2Proof.Machine

open Sys2Proof.Safety

/-! ### Registers -/

/-- A write that is not dropped: the register reads as the value, every other one as before (R20). -/
theorem State.readReg_writeReg_of_kept {s : State} {d : Reg} (h : ¬ Discards s d) (q : Reg) (v : DWord) :
    (s.writeReg d v).readReg q = if q = d then v else s.readReg q := by
  rw [State.readReg_writeReg]
  exact if_congr (and_iff_left h) rfl rfl

/-- A write to a hardwired register 0 is dropped (R21). -/
theorem State.writeReg_of_discards {s : State} {d : Reg} (h : Discards s d) (v : DWord) : s.writeReg d v = s := by
  obtain ⟨hz, rfl⟩ := h
  simp [State.writeReg, hz]

theorem State.readReg_writeReg_other {s : State} {d q : Reg} (h : q ≠ d) (v : DWord) :
    (s.writeReg d v).readReg q = s.readReg q := by
  rw [State.readReg_writeReg, if_neg fun hq => h hq.1]

/-- What the written register reads as afterwards depends on the value and the parameters alone. -/
theorem State.readReg_writeReg_same_congr {s₁ s₂ : State} (hp : s₁.params = s₂.params) (d : Reg) (v : DWord) :
    (s₁.writeReg d v).readReg d = (s₂.writeReg d v).readReg d := by
  by_cases h₁ : Discards s₁ d
  · have h₂ : Discards s₂ d := ⟨hp ▸ h₁.1, h₁.2⟩
    rw [State.writeReg_of_discards h₁, State.writeReg_of_discards h₂, State.readReg_hardwired h₁,
      State.readReg_hardwired h₂]
  · have h₂ : ¬ Discards s₂ d := fun h => h₁ ⟨hp ▸ h.1, h.2⟩
    rw [State.readReg_writeReg_of_kept h₁, State.readReg_writeReg_of_kept h₂, if_pos rfl, if_pos rfl]

/-! ### The pc -/

/-- A jump to a multiple of the stride has a step (R44). -/
theorem State.jump_of_aligned {s : State} {a : Nat} (h : a % s.params.pcUnit.stride = 0) :
    s.jump a = .next { s with pc := a } := if_pos h

theorem State.advance_pc_congr {s₁ s₂ : State} (hpc : s₁.pc = s₂.pc) (hp : s₁.params = s₂.params) :
    s₁.advance.pc = s₂.advance.pc := by
  simp only [State.advance_pc, hpc, hp]

/-! ### Data memory -/

/-- A word of data memory is fixed by its eight bytes. -/
theorem State.dmemWord_eq_of_bytes {s : State} {ea : Addr} {v : DWord}
    (h : ∀ j < 8, s.dmemByte (8 * ea.toNat + j) = byteOf v j) : s.dmemWord ea = v := by
  refine eq_of_subfields (size := 8) (n := 8) (by decide) rfl fun j hj => ?_
  rw [State.subfield_dmemWord s ea hj, h j hj, byteOf_eq_subfield]

/-- A write to an address that exists replaces the word's eight bytes (R41). -/
theorem State.memWrite_of_lt {s : State} {ea : Addr} (h : ea.toNat < s.params.dmemWords) (v : DWord) :
    s.memWrite ea v = .ok { s with dmem := s.dmem.writeBytes (8 * ea.toNat) 8 (byteOf v) } := if_pos h

/-- A write beyond `DMEM_WORDS` has no step (R42). -/
theorem State.memWrite_of_not_lt {s : State} {ea : Addr} (h : ¬ ea.toNat < s.params.dmemWords) (v : DWord) :
    s.memWrite ea v = .error .dmemOutOfRange := if_neg h

/-- The word written to a location is the one it holds afterwards (R43). -/
theorem State.dmemWord_writeBytes_same (s : State) (ea : Addr) (v : DWord) :
    ({ s with dmem := s.dmem.writeBytes (8 * ea.toNat) 8 (byteOf v) } : State).dmemWord ea = v := by
  refine State.dmemWord_eq_of_bytes fun j hj => ?_
  rw [State.dmemByte_writeBytes, if_pos (by omega), Nat.add_sub_cancel_left]

/-- The only instruction that stores is VSD (R43). -/
theorem eq_vsd_of_stores {i : Instr} {ea : Addr} (h : i.stores = some ea) : ∃ rs imm, i = .vsd rs imm := by
  cases i with
  | vsd rs imm => exact ⟨rs, imm, rfl⟩
  | _ => cases h

/-- An image of data holds, in each word, the bytes of the first value listed for it, and no byte of a word that is not
listed. -/
theorem dataImage_lookup (data : List (Addr × DWord)) (a : Addr) {j : Nat} (hj : j < 8) :
    Memory.lookup (dataImage data) (8 * a.toNat + j) = (data.lookup a).map fun v => byteOf v j := by
  induction data with
  | nil => rfl
  | cons entry rest ih =>
    obtain ⟨k, v⟩ := entry
    rw [dataImage, Memory.lookup_writeBytes, ih, List.lookup_cons]
    by_cases hak : a = k
    · subst hak
      rw [if_pos (by omega), Nat.add_sub_cancel_left]
      simp
    · have hne : a.toNat ≠ k.toNat := fun h => hak (BitVec.eq_of_toNat_eq h)
      rw [if_neg (by omega), beq_false_of_ne hak]

/-! ### Instruction memory -/

/-- An address whose first byte is not listed is outside the image (R48). -/
theorem State.fetchWord_eq_none_of_lookup {s : State} {a : Nat} (h : s.imem.lookup (s.imageOffset a) = none) :
    s.fetchWord a = none := by
  unfold State.fetchWord
  rw [h]
  exact ite_self none

/-! ### One instruction and one step -/

/-- Where an instruction leaves the pc: advanced, or at its branch target (R25, R164). -/
theorem exec_pc {i : Instr} {s t : State} (h : exec i s = .next t) :
    t.pc = pcAfter s ∨ ∃ a, i.branchTarget = some a ∧ t.pc = a := by
  rcases exec_next_cases h with rfl | ⟨d, v, _, rfl⟩ | ⟨ea, v, _, _, rfl⟩ | ⟨a, ha, _, rfl⟩
  · exact .inl rfl
  · exact .inl (by simp [pcAfter])
  · exact .inl rfl
  · exact .inr ⟨a, ha, rfl⟩

/-- A register that the instruction is not listed to write reads as before (R22). -/
theorem exec_readReg_other {i : Instr} {s t : State} (h : exec i s = .next t) {r : Reg} (hr : i.writes ≠ some r) :
    t.readReg r = s.readReg r := by
  rcases exec_next_cases h with rfl | ⟨d, v, hd, rfl⟩ | ⟨ea, v, _, _, rfl⟩ | ⟨a, _, _, rfl⟩
  · rfl
  · have hrd : r ≠ d := fun hrd => hr (hrd ▸ hd)
    rw [State.advance_readReg, State.readReg_writeReg_other hrd]
  · rfl
  · rfl

/-- An instruction that stores nothing leaves data memory as it is (R43). -/
theorem exec_dmem {i : Instr} {s t : State} (h : exec i s = .next t) (hi : i.stores = none) : t.dmem = s.dmem := by
  rcases exec_next_cases h with rfl | ⟨d, v, _, rfl⟩ | ⟨ea, v, hea, _, rfl⟩ | ⟨a, _, _, rfl⟩
  · rfl
  · simp
  · rw [hi] at hea; cases hea
  · rfl

/-- No instruction changes the program or the parameters (R49). -/
theorem exec_imem_params {i : Instr} {s t : State} (h : exec i s = .next t) : t.imem = s.imem ∧ t.params = s.params := by
  rcases exec_next_cases h with rfl | ⟨d, v, _, rfl⟩ | ⟨ea, v, _, _, rfl⟩ | ⟨a, _, _, rfl⟩
  · exact ⟨rfl, rfl⟩
  · simp
  · exact ⟨rfl, rfl⟩
  · exact ⟨rfl, rfl⟩

/-- No step changes the program or the parameters (R49). -/
theorem step_imem_params {s t : State} (h : step s = .next t) : t.imem = s.imem ∧ t.params = s.params := by
  obtain ⟨w, _, ⟨reason, _, rfl⟩ | ⟨i, _, hi⟩⟩ := step_next_cases h
  · exact ⟨rfl, rfl⟩
  · exact exec_imem_params hi

/-- A step at a word that decodes is the decoded instruction (R25). -/
theorem step_of_decode_ok {s : State} {w : Insn} {i : Instr} (hf : s.fetchWord s.pc = some w) (hd : decode w = .ok i) :
    step s = exec i s := by
  simp only [step, hf, hd]

/-- A step at an illegal word is a no-operation (R163). -/
theorem step_of_decode_error {s : State} {w : Insn} {reason : IllegalWord} (hf : s.fetchWord s.pc = some w)
    (hd : decode w = .error reason) : step s = s.noOperation := by
  simp only [step, hf, hd, execIllegal]

/-- Outside the image there is no step (R194). -/
theorem step_of_fetch_none {s : State} (hf : s.fetchWord s.pc = none) : step s = .fault .runEnded := by
  simp only [step, hf]

end Sys2Proof.Machine
end

section
/-! PROOFS. What an instruction does depends on what it is listed to read (R22): each shape of a meaning, carried out in two
states that agree on that, leaves two states that agree on what the instruction writes. -/

namespace Sys2Proof.Machine

/-- The two states have the same pc, the same value in the register that the instruction writes, and the same word where it
stores. -/
def SameEffect (i : Instr) (t₁ t₂ : State) : Prop :=
  t₁.pc = t₂.pc ∧ (∀ r, i.writes = some r → t₁.readReg r = t₂.readReg r) ∧
    (∀ a, i.stores = some a → t₁.dmemWord a = t₂.dmemWord a)

/-- The registers a masked write depends on: the sources, and rD unless all of it is written. -/
theorem forall_mem_maskedReads {p : Participation} {d : Reg} {sources : List Reg} {P : Reg → Prop} :
    (∀ r ∈ maskedReads p d sources, P r) ↔ (p ≠ .all → P d) ∧ ∀ r ∈ sources, P r := by
  unfold maskedReads
  split <;> simp_all

/-- Where nothing of the old value is read, nothing of it is left. -/
theorem merge_congr {p : Participation} {old₁ old₂ : DWord} (h : p ≠ .all → old₁ = old₂) (v : DWord) :
    p.merge old₁ v = p.merge old₂ v := by
  by_cases hp : p = .all
  · subst hp; rw [merge_all, merge_all]
  · rw [h hp]

section Agreement

/-! ### Two states with the same pc and the same parameters -/

variable {i : Instr} {s₁ s₂ t₁ : State} (hpc : s₁.pc = s₂.pc) (hp : s₁.params = s₂.params)
include hpc hp

theorem advance_sameEffect (hw : i.writes = none) (hs : i.stores = none) : SameEffect i s₁.advance s₂.advance :=
  ⟨State.advance_pc_congr hpc hp, by simp [hw], by simp [hs]⟩

theorem writeReg_sameEffect {d : Reg} (hw : i.writes = some d) (hs : i.stores = none) (v : DWord) :
    SameEffect i (s₁.writeReg d v).advance (s₂.writeReg d v).advance := by
  refine ⟨State.advance_pc_congr (by simpa using hpc) (by simpa using hp), fun r hr => ?_, by simp [hs]⟩
  obtain rfl : d = r := Option.some.inj (hw.symm.trans hr)
  exact State.readReg_writeReg_same_congr hp d v

theorem commit_sameEffect {d : Reg} {p : Participation} {sources : List Reg} {v₁ v₂ : DWord}
    (hw : i.writes = some d) (hs : i.stores = none)
    (hr : ∀ r ∈ maskedReads p d sources, s₁.readReg r = s₂.readReg r)
    (hv : (∀ r ∈ sources, s₁.readReg r = s₂.readReg r) → v₁ = v₂) (h : s₁.commit d p v₁ = .next t₁) :
    ∃ t₂, s₂.commit d p v₂ = .next t₂ ∧ SameEffect i t₁ t₂ := by
  obtain ⟨hold, hsources⟩ := forall_mem_maskedReads.1 hr
  obtain rfl := hv hsources
  injection h with h
  subst h
  refine ⟨_, rfl, ?_⟩
  unfold State.writeMasked
  rw [merge_congr hold v₁]
  exact writeReg_sameEffect hpc hp hw hs _

theorem noOperation_sameEffect (hw : i.writes = none) (hs : i.stores = none) (h : s₁.noOperation = .next t₁) :
    ∃ t₂, s₂.noOperation = .next t₂ ∧ SameEffect i t₁ t₂ := by
  injection h with h
  exact ⟨_, rfl, h ▸ advance_sameEffect hpc hp hw hs⟩

theorem commitProducts_sameEffect {d : Reg} {p : Participation} {ww : Width} {sources : List Reg} {v₁ v₂ : DWord}
    (hw : i.writes = if ww.multiplies then some d else none) (hs : i.stores = none)
    (hr : ∀ r ∈ (if ww.multiplies then maskedReads p d sources else []), s₁.readReg r = s₂.readReg r)
    (hv : (∀ r ∈ sources, s₁.readReg r = s₂.readReg r) → v₁ = v₂) (h : s₁.commitProducts d p ww v₁ = .next t₁) :
    ∃ t₂, s₂.commitProducts d p ww v₂ = .next t₂ ∧ SameEffect i t₁ t₂ := by
  unfold State.commitProducts at h ⊢
  cases hm : ww.multiplies
  · simp only [hm] at hw h ⊢
    exact noOperation_sameEffect hpc hp hw hs h
  · simp only [hm] at hw hr h ⊢
    exact commit_sameEffect hpc hp hw hs hr hv h

theorem branchIf_sameEffect {c₁ c₂ : Bool} {a : Nat} (hw : i.writes = none) (hs : i.stores = none) (hc : c₁ = c₂)
    (h : s₁.branchIf c₁ a = .next t₁) : ∃ t₂, s₂.branchIf c₂ a = .next t₂ ∧ SameEffect i t₁ t₂ := by
  subst hc
  rcases State.branchIf_next h with ⟨rfl, rfl⟩ | ⟨rfl, ha, rfl⟩
  · exact ⟨_, rfl, advance_sameEffect hpc hp hw hs⟩
  · exact ⟨{ s₂ with pc := a }, State.jump_of_aligned (hp ▸ ha), rfl, by simp [hw], by simp [hs]⟩

theorem execVld_sameEffect {rd : Reg} {imm : BitVec 16} (hm : s₁.dmemWord (zextAddr imm) = s₂.dmemWord (zextAddr imm))
    (h : execVld rd imm s₁ = .next t₁) : ∃ t₂, execVld rd imm s₂ = .next t₂ ∧ SameEffect (.vld rd imm) t₁ t₂ := by
  have hread : s₁.memRead (zextAddr imm) = s₂.memRead (zextAddr imm) := by simp only [State.memRead, hp, hm]
  unfold execVld at h ⊢
  rw [← hread]
  split at h
  · injection h with h
    exact ⟨_, rfl, h ▸ writeReg_sameEffect hpc hp rfl rfl _⟩
  · cases h

theorem execVsd_sameEffect {rs : Reg} {imm : BitVec 16} (hr : s₁.readReg rs = s₂.readReg rs)
    (h : execVsd rs imm s₁ = .next t₁) : ∃ t₂, execVsd rs imm s₂ = .next t₂ ∧ SameEffect (.vsd rs imm) t₁ t₂ := by
  unfold execVsd at h ⊢
  split at h
  · rename_i u hu
    obtain ⟨hlt, rfl⟩ := State.memWrite_ok hu
    injection h with h
    subst h
    rw [State.memWrite_of_lt (hp ▸ hlt)]
    refine ⟨_, rfl, State.advance_pc_congr hpc hp, by simp [Instr.writes], fun a ha => ?_⟩
    obtain rfl : zextAddr imm = a := Option.some.inj ha
    rw [State.advance_dmemWord, State.advance_dmemWord, State.dmemWord_writeBytes_same, State.dmemWord_writeBytes_same, hr]
  · cases h

/-- Two states that agree on what an instruction is listed to read: it completes alike and writes alike. -/
theorem exec_sameEffect (hr : ∀ r ∈ i.reads, s₁.readReg r = s₂.readReg r)
    (hm : ∀ a, i.loads = some a → s₁.dmemWord a = s₂.dmemWord a) (h : exec i s₁ = .next t₁) :
    ∃ t₂, exec i s₂ = .next t₂ ∧ SameEffect i t₁ t₂ := by
  cases i with
  | vand _ ra rb | vor _ ra rb | vxor _ ra rb | vadd _ ra rb | vsub _ ra rb | vsll _ ra rb | vsrl _ ra rb | vsra _ ra rb =>
    exact commit_sameEffect hpc hp (sources := [ra, rb]) rfl rfl hr (fun h => by simp [h]) h
  | vnot _ ra | vmov _ ra | vrtth _ ra | vslli _ ra | vsrli _ ra | vsrai _ ra =>
    exact commit_sameEffect hpc hp (sources := [ra]) rfl rfl hr (fun h => by simp [h]) h
  | vmuleu _ ra rb | vmulou _ ra rb =>
    exact commitProducts_sameEffect hpc hp (sources := [ra, rb]) rfl rfl hr (fun h => by simp [h]) h
  | vsqeu _ ra | vsqou _ ra =>
    exact commitProducts_sameEffect hpc hp (sources := [ra]) rfl rfl hr (fun h => by simp [h]) h
  | vld rd imm => exact execVld_sameEffect hpc hp (hm _ rfl) h
  | vsd rs imm => exact execVsd_sameEffect hpc hp (hr rs (by simp [Instr.reads])) h
  | vbez rd imm | vbnez rd imm =>
    exact branchIf_sameEffect hpc hp rfl rfl (by rw [hr rd (by simp [Instr.reads])]) h
  | vnop => exact noOperation_sameEffect hpc hp rfl rfl h

end Agreement

end Sys2Proof.Machine
end

section
/-! PROOFS. Another width of the pc (D2): every operation commutes with the change of the width, so long as the advanced pc is
the same number at both widths. -/

namespace Sys2Proof.Machine

open Sys2Proof.Safety

/-- The outcome of a step, its next state changed by `f`. -/
def mapNext (f : State → State) : Host.Outcome State Fault Refusal → Host.Outcome State Fault Refusal
  | .next s => .next (f s)
  | .fault r => .fault r
  | .refused r => .refused r

@[simp] theorem mapNext_next (f : State → State) (s : State) : mapNext f (.next s) = .next (f s) := rfl
@[simp] theorem mapNext_fault (f : State → State) (r : Fault) : mapNext f (.fault r) = .fault r := rfl
@[simp] theorem mapNext_refused (f : State → State) (r : Refusal) : mapNext f (.refused r) = .refused r := rfl

/-- A run goes on from the next state, and stays where it is when there is none (R194). -/
theorem runFor_succ_of_next {s t : State} (h : step s = .next t) (n : Nat) :
    State.runFor (n + 1) s = State.runFor n t := by
  rw [State.runFor, h]

theorem runFor_succ_of_fault {s : State} {r : Fault} (h : step s = .fault r) (n : Nat) : State.runFor (n + 1) s = s := by
  rw [State.runFor, h]

theorem runFor_succ_of_refused {s : State} {r : Refusal} (h : step s = .refused r) (n : Nat) :
    State.runFor (n + 1) s = s := by
  rw [State.runFor, h]

/-- Two widths of at least 16 bits advance alike to an address below 2^16. -/
theorem pcAfter_withPcWidth {s : State} {width : Nat} (hs : 16 ≤ s.params.pcWidth) (hw : 16 ≤ width)
    (h : s.pc + s.params.pcUnit.stride < 2 ^ 16) : pcAfter (withPcWidth s width) = pcAfter s :=
  (State.advance_pc_of_lt (s := withPcWidth s width) hw h).trans (State.advance_pc_of_lt hs h).symm

@[simp] theorem withPcWidth_writeReg (s : State) (width : Nat) (d : Reg) (v : DWord) :
    (withPcWidth s width).writeReg d v = withPcWidth (s.writeReg d v) width := by
  rw [State.writeReg, State.writeReg, apply_ite (withPcWidth · width)]
  rfl

theorem withPcWidth_jump (s : State) (width a : Nat) :
    (withPcWidth s width).jump a = mapNext (withPcWidth · width) (s.jump a) := by
  rw [State.jump, State.jump, apply_ite (mapNext (withPcWidth · width))]
  rfl

section SameAdvance

variable {s : State} {width : Nat} (hpc : pcAfter (withPcWidth s width) = pcAfter s)
include hpc

/-- After an operation that keeps the pc and the parameters, the two widths still advance to the same number. -/
theorem withPcWidth_advance {t : State} (ht : t.pc = s.pc) (hp : t.params = s.params) :
    (withPcWidth t width).advance = withPcWidth t.advance width := by
  have h : (withPcWidth t width).advance.pc = t.advance.pc := by
    simpa [pcAfter, ht, hp] using hpc
  calc (withPcWidth t width).advance
      = { withPcWidth t width with pc := (withPcWidth t width).advance.pc } := rfl
    _ = withPcWidth t.advance width := by rw [h]; rfl

theorem withPcWidth_commit (d : Reg) (p : Participation) (v : DWord) :
    (withPcWidth s width).commit d p v = mapNext (withPcWidth · width) (s.commit d p v) := by
  unfold State.commit State.writeMasked
  rw [withPcWidth_readReg, withPcWidth_writeReg, mapNext_next, withPcWidth_advance hpc (by simp) (by simp)]

theorem withPcWidth_noOperation :
    (withPcWidth s width).noOperation = mapNext (withPcWidth · width) s.noOperation := by
  unfold State.noOperation
  rw [mapNext_next, withPcWidth_advance hpc rfl rfl]

theorem withPcWidth_commitProducts (d : Reg) (p : Participation) (ww : Width) (v : DWord) :
    (withPcWidth s width).commitProducts d p ww v = mapNext (withPcWidth · width) (s.commitProducts d p ww v) := by
  unfold State.commitProducts
  split
  · exact withPcWidth_commit hpc d p v
  · exact withPcWidth_noOperation hpc

theorem withPcWidth_branchIf (c : Bool) (a : Nat) :
    (withPcWidth s width).branchIf c a = mapNext (withPcWidth · width) (s.branchIf c a) := by
  cases c
  · exact withPcWidth_noOperation hpc
  · exact withPcWidth_jump s width a

theorem withPcWidth_execVld (rd : Reg) (imm : BitVec 16) :
    execVld rd imm (withPcWidth s width) = mapNext (withPcWidth · width) (execVld rd imm s) := by
  have hread : (withPcWidth s width).memRead (zextAddr imm) = s.memRead (zextAddr imm) := rfl
  unfold execVld
  rw [hread]
  cases s.memRead (zextAddr imm) with
  | ok v => simp only [mapNext_next, withPcWidth_writeReg, withPcWidth_advance hpc, State.writeReg_pc, State.writeReg_params]
  | error r => rfl

theorem withPcWidth_execVsd (rs : Reg) (imm : BitVec 16) :
    execVsd rs imm (withPcWidth s width) = mapNext (withPcWidth · width) (execVsd rs imm s) := by
  unfold execVsd
  by_cases h : (zextAddr imm).toNat < s.params.dmemWords
  · rw [State.memWrite_of_lt h, State.memWrite_of_lt (s := withPcWidth s width) h, withPcWidth_readReg]
    exact congrArg Host.Outcome.next (withPcWidth_advance hpc (t := { s with dmem := _ }) rfl rfl)
  · rw [State.memWrite_of_not_lt h, State.memWrite_of_not_lt (s := withPcWidth s width) h]
    rfl

/-- An instruction does the same at the other width. -/
theorem withPcWidth_exec (i : Instr) :
    exec i (withPcWidth s width) = mapNext (withPcWidth · width) (exec i s) := by
  cases i with
  | vand | vor | vxor | vnot | vmov | vadd | vsub => exact withPcWidth_commit hpc ..
  | vrtth | vsll | vslli | vsrl | vsrli | vsra | vsrai => exact withPcWidth_commit hpc ..
  | vmuleu | vmulou | vsqeu | vsqou => exact withPcWidth_commitProducts hpc ..
  | vld rd imm => exact withPcWidth_execVld hpc rd imm
  | vsd rs imm => exact withPcWidth_execVsd hpc rs imm
  | vbez | vbnez => exact withPcWidth_branchIf hpc ..
  | vnop => exact withPcWidth_noOperation hpc

end SameAdvance

/-- A step does the same at the other width, where a fetched word is followed by an address that both widths hold. -/
theorem withPcWidth_step {s : State} {width : Nat}
    (hpc : s.fetchWord s.pc ≠ none → pcAfter (withPcWidth s width) = pcAfter s) :
    step (withPcWidth s width) = mapNext (withPcWidth · width) (step s) := by
  cases hf : s.fetchWord s.pc with
  | none => rw [step_of_fetch_none hf, step_of_fetch_none (s := withPcWidth s width) hf, mapNext_fault]
  | some w =>
    have hpc := hpc (by simp [hf])
    cases hd : decode w with
    | ok i =>
      rw [step_of_decode_ok hf hd, step_of_decode_ok (s := withPcWidth s width) hf hd]
      exact withPcWidth_exec hpc i
    | error reason =>
      rw [step_of_decode_error hf hd, step_of_decode_error (s := withPcWidth s width) hf hd]
      exact withPcWidth_noOperation hpc

/-- The addresses that hold an instruction are each followed by one below 2^16: what D2 asks of a program. -/
def EndsBelow (s : State) : Prop := ∀ a, s.fetchWord a ≠ none → a + s.params.pcUnit.stride < 2 ^ 16

/-- The image stays where it is, so a step keeps what D2 asks of it. -/
theorem EndsBelow.step {s t : State} (h : EndsBelow s) (hst : step s = .next t) : EndsBelow t := by
  obtain ⟨hi, hp⟩ := step_imem_params hst
  intro a ha
  rw [State.fetchWord_congr hi hp] at ha
  exact hp ▸ h a ha

/-- A run is the same at another width of the pc (D2). -/
theorem withPcWidth_runFor (n : Nat) (s : State) (width : Nat) (hs : 16 ≤ s.params.pcWidth) (hw : 16 ≤ width)
    (h : EndsBelow s) : State.runFor n (withPcWidth s width) = withPcWidth (State.runFor n s) width := by
  induction n generalizing s with
  | zero => rfl
  | succ n ih =>
    have hstep := withPcWidth_step fun hf => pcAfter_withPcWidth hs hw (h s.pc hf)
    cases hst : step s with
    | next t =>
      rw [hst, mapNext_next] at hstep
      rw [runFor_succ_of_next hst, runFor_succ_of_next hstep]
      exact ih t ((step_imem_params hst).2 ▸ hs) (h.step hst)
    | fault r =>
      rw [hst, mapNext_fault] at hstep
      rw [runFor_succ_of_fault hst, runFor_succ_of_fault hstep]
    | refused r =>
      rw [hst, mapNext_refused] at hstep
      rw [runFor_succ_of_refused hst, runFor_succ_of_refused hstep]

end Sys2Proof.Machine
end

section
/-! PROOFS. The statements about the state, one step, reset and the host, settled. -/

namespace Sys2Proof.Proofs

open Sys2Proof.Machine
open Sys2Proof.Safety

/-- Settles O44. -/
theorem onlyBranchesJump : Obligations.OnlyBranchesJump := by
  intro i s t h
  rcases exec_pc h with hpc | ⟨a, ha, hpc⟩
  · exact ⟨fun _ => hpc, fun _ _ => .inl hpc⟩
  · refine ⟨fun hnone => ?_, fun b hb => .inr ?_⟩
    · rw [hnone] at ha; cases ha
    · rw [hpc, Option.some.inj (ha.symm.trans hb)]

/-- Settles O45. -/
theorem onlyTheDestinationRegisterChanges : Obligations.OnlyTheDestinationRegisterChanges :=
  fun _ _ _ h _ hr => exec_readReg_other h hr

/-- Settles O46: a step that changes data memory decodes to an instruction that stores, and only VSD does. -/
theorem onlyVsdChangesDataMemory : Obligations.OnlyVsdChangesDataMemory := by
  intro s t w hf h hvsd a
  cases hd : decode w with
  | error reason =>
    rw [step_of_decode_error hf hd] at h
    injection h with h
    rw [← h, State.advance_dmemByte]
  | ok i =>
    have hstores : i.stores = none := Option.eq_none_iff_forall_not_mem.2 fun ea hea => by
      obtain ⟨rs, imm, rfl⟩ := eq_vsd_of_stores hea
      exact hvsd rs imm hd
    rw [step_of_decode_ok hf hd] at h
    exact State.dmemByte_congr (exec_dmem h hstores) a

/-- Settles O48, shape by shape of the instruction's meaning (`exec_sameEffect`). -/
theorem resultDependsOnListedReadsOnly : Obligations.ResultDependsOnListedReadsOnly :=
  fun _ _ _ _ hpc hp hr hm h => exec_sameEffect hpc hp hr hm h

/-- Settles O54, from what an image of data holds (`dataImage_lookup`). -/
theorem initialDataIsInMemory : Obligations.InitialDataIsInMemory := by
  intro p program data a
  have hlookup : ∀ j < 8, (State.boot p program data).dmem.lookup (8 * a.toNat + j) =
      (data.lookup a).map fun v => byteOf v j := fun j hj => dataImage_lookup data a hj
  constructor
  · intro v hv
    refine State.dmemWord_eq_of_bytes fun j hj => ?_
    rw [State.dmemByte, hlookup j hj, hv, Option.map_some, Option.getD_some]
  · intro hnone j hj
    rw [hlookup j hj, hnone, Option.map_none]

/-- Settles O56, by induction on the number of steps (`withPcWidth_runFor`). -/
theorem runsDoNotDependOnPcWidth : Obligations.RunsDoNotDependOnPcWidth :=
  fun n s width hs hw h => withPcWidth_runFor n s width hs hw h

/-- Settles O11, by whether the write is dropped. -/
theorem registersReadAsWritten : Obligations.RegistersReadAsWritten := by
  intro s r q v
  refine ⟨fun hz => ?_, fun hz => ⟨?_, ?_, fun hr => ?_⟩⟩
  · exact State.readReg_writeReg_of_kept (fun hd => Bool.noConfusion (hz.symm.trans hd.1)) q v
  · exact State.readReg_hardwired ⟨hz, rfl⟩
  · exact State.writeReg_of_discards ⟨hz, rfl⟩ v
  · exact State.readReg_writeReg_of_kept (fun hd => hr hd.2) q v

/-- Settles O39. -/
theorem stepRunsTheDecodedInstruction : Obligations.StepRunsTheDecodedInstruction :=
  fun _ _ _ hf hd => step_of_decode_ok hf hd

/-- Reset has the invariant where its images and its parameters allow it. -/
theorem resetWith_inv {p : Config.Params} {imem dmemInit : Memory} (hi : imem.wf = true) (hd : dmemInit.wf = true)
    (hrange : ∀ c ∈ dmemInit, c.1 < 8 * p.dmemWords) (hwidth : 16 ≤ p.pcWidth) (hreset : p.pcReset < 2 ^ p.pcWidth)
    (haligned : p.pcReset % p.pcUnit.stride = 0) : Inv (State.resetWith p imem dmemInit) where
  dmem_wf := hd
  imem_wf := hi
  dmem_range := hrange
  pc_width := hwidth
  pc_range := hreset
  pc_aligned := haligned
  zero_register _ := by simp [State.resetWith]

/-- Settles O51. -/
theorem resetHasTheInvariant : Obligations.ResetHasTheInvariant := by
  refine ⟨?_, fun p program dmemInit hd hrange hwidth hreset haligned => ?_⟩
  · exact resetWith_inv rfl rfl (by simp) (by decide) (by decide) (by decide)
  · exact resetWith_inv (programImage_wf program) hd hrange hwidth hreset haligned

/-- Settles O52. -/
theorem resetPlacesPcAndImages : Obligations.ResetPlacesPcAndImages := by
  refine ⟨rfl, rfl, fun a => ?_, fun p imem dmemInit => ⟨rfl, fun a b hb => ?_, rfl⟩⟩
  · exact State.fetchWord_eq_none_of_lookup rfl
  · rw [State.dmemByte, State.resetWith_dmem, hb, Option.getD_some]

end Sys2Proof.Proofs
end

section
/-! PROOFS for the statements about the memories and the program image (20_memory.md). The rules that they share: what a
store leaves alone, where an access or a branch stops, what a program image holds, and what keeps the invariant. -/

namespace Sys2Proof.Machine

/-! ### Registers and the pc -/

/-- A write leaves the cell of a hardwired register 0 alone (R21). -/
theorem State.writeReg_regs_zero {s : State} (hz : s.params.r0HardwiredZero = true) (d : Reg) (v : DWord) :
    (s.writeReg d v).regs[(0 : Reg)] = s.regs[(0 : Reg)] := by
  by_cases hd : d = 0
  · rw [State.writeReg_of_discards ⟨hz, hd⟩]
  · have hval : d.val ≠ 0 := fun h => hd (Fin.ext h)
    simp [State.writeReg, hd, hval]

/-- The stride divides the modulus of every pc of at least 16 bits, so an advance that wraps stays aligned (R23, D3). -/
theorem stride_dvd_two_pow (u : Config.PcUnit) {width : Nat} (h : 16 ≤ width) : u.stride ∣ 2 ^ width := by
  cases u with
  | instruction => exact Nat.one_dvd _
  | byte => exact Nat.pow_dvd_pow 2 (show 2 ≤ width by omega)

/-- A jump stops exactly at a target that is no multiple of the stride (R44). -/
theorem State.jump_eq_fault_iff {s : State} {a : Nat} :
    s.jump a = .fault .misalignedTarget ↔ a % s.params.pcUnit.stride ≠ 0 := by
  refine ⟨fun h => (State.jump_fault h).1, fun h => ?_⟩
  rw [State.jump, if_neg h]

/-- A conditional branch that has no step is taken, and to a misaligned target. -/
theorem State.branchIf_fault {s : State} {c : Bool} {a : Nat} {f : Fault} (h : s.branchIf c a = .fault f) :
    c = true ∧ a % s.params.pcUnit.stride ≠ 0 ∧ f = .misalignedTarget := by
  cases c with
  | false => cases h
  | true => exact ⟨rfl, State.jump_fault h⟩

/-- VBEZ on a zero register is the jump to its immediate (R160). -/
theorem exec_vbez_of_zero {s : State} {rd : Reg} (h : s.readReg rd = 0) (imm : BitVec 16) :
    exec (.vbez rd imm) s = s.jump imm.toNat := by
  simp [exec, execVbez, State.branchIf, (isZero_eq_true _).2 h]

/-- VBNEZ on a nonzero register is the jump to its immediate (R161). -/
theorem exec_vbnez_of_ne_zero {s : State} {rd : Reg} (h : s.readReg rd ≠ 0) (imm : BitVec 16) :
    exec (.vbnez rd imm) s = s.jump imm.toNat := by
  simp [exec, execVbnez, State.branchIf, (isZero_eq_false _).2 h]

/-! ### Data memory -/

/-- Different word addresses name disjoint words: a write to one leaves the other as it was (R40). -/
theorem State.dmemWord_writeBytes_other (s : State) {a ea : Addr} (h : a ≠ ea) (v : DWord) :
    ({ s with dmem := s.dmem.writeBytes (8 * ea.toNat) 8 (byteOf v) } : State).dmemWord a = s.dmemWord a := by
  have hne : a.toNat ≠ ea.toNat := fun h' => h (BitVec.eq_of_toNat_eq h')
  refine State.dmemWord_eq_of_bytes fun j hj => ?_
  rw [State.dmemByte_writeBytes, if_neg (by omega), byteOf_eq_subfield, State.subfield_dmemWord s a hj]

/-- A read at an address that exists gives the word (R41). -/
theorem State.memRead_of_lt {s : State} {ea : Addr} (h : ea.toNat < s.params.dmemWords) :
    s.memRead ea = .ok (s.dmemWord ea) := if_pos h

/-- A read beyond `DMEM_WORDS` has no step (R42). -/
theorem State.memRead_of_not_lt {s : State} {ea : Addr} (h : ¬ ea.toNat < s.params.dmemWords) :
    s.memRead ea = .error .dmemOutOfRange := if_neg h

/-- A load from an address that exists (R150). -/
theorem exec_vld_of_lt {s : State} {imm : BitVec 16} (h : imm.toNat < s.params.dmemWords) (rd : Reg) :
    exec (.vld rd imm) s = .next (s.writeReg rd (s.dmemWord (zextAddr imm))).advance := by
  rw [← toNat_zextAddr] at h
  simp only [exec, execVld, State.memRead_of_lt h]

/-- A load from beyond `DMEM_WORDS` has no step (R42). -/
theorem exec_vld_of_le {s : State} {imm : BitVec 16} (h : s.params.dmemWords ≤ imm.toNat) (rd : Reg) :
    exec (.vld rd imm) s = .fault .dmemOutOfRange := by
  rw [← toNat_zextAddr] at h
  simp only [exec, execVld, State.memRead_of_not_lt (Nat.not_lt.2 h)]

/-- A store to an address that exists (R151). -/
theorem exec_vsd_of_lt {s : State} {imm : BitVec 16} (h : imm.toNat < s.params.dmemWords) (rs : Reg) :
    exec (.vsd rs imm) s =
      .next (State.advance
        { s with dmem := s.dmem.writeBytes (8 * (zextAddr imm).toNat) 8 (byteOf (s.readReg rs)) }) := by
  rw [← toNat_zextAddr] at h
  simp only [exec, execVsd, State.memWrite_of_lt h]

/-- A store beyond `DMEM_WORDS` has no step (R42). -/
theorem exec_vsd_of_le {s : State} {imm : BitVec 16} (h : s.params.dmemWords ≤ imm.toNat) (rs : Reg) :
    exec (.vsd rs imm) s = .fault .dmemOutOfRange := by
  rw [← toNat_zextAddr] at h
  simp only [exec, execVsd, State.memWrite_of_not_lt (Nat.not_lt.2 h)]

/-- A store that has a step is to an address that exists, and replaces that word's eight bytes. -/
theorem exec_vsd_next {s t : State} {rs : Reg} {imm : BitVec 16} (h : exec (.vsd rs imm) s = .next t) :
    imm.toNat < s.params.dmemWords ∧
      t = State.advance { s with dmem := s.dmem.writeBytes (8 * (zextAddr imm).toNat) 8 (byteOf (s.readReg rs)) } := by
  rcases Nat.lt_or_ge imm.toNat s.params.dmemWords with hlt | hle
  · rw [exec_vsd_of_lt hlt] at h
    injection h with h
    exact ⟨hlt, h.symm⟩
  · rw [exec_vsd_of_le hle] at h
    cases h

/-! ### Instruction memory -/

/-- An instruction is four bytes in either unit of the pc (R60). -/
theorem stride_mul_imageBytes (u : Config.PcUnit) : u.stride * u.imageBytes = 4 := by cases u <;> rfl

/-- The word of an aligned address begins at four times its instruction number. -/
theorem State.imageOffset_of_aligned {s : State} {a : Nat} (h : a % s.params.pcUnit.stride = 0) :
    s.imageOffset a = 4 * (a / s.params.pcUnit.stride) := by
  calc s.imageOffset a
      = s.params.pcUnit.stride * (a / s.params.pcUnit.stride) * s.params.pcUnit.imageBytes := by
        rw [Nat.mul_div_cancel' (Nat.dvd_of_mod_eq_zero h), State.imageOffset]
    _ = 4 * (a / s.params.pcUnit.stride) := by
        rw [Nat.mul_right_comm, stride_mul_imageBytes]

/-- The bytes of a program, four for each instruction (R46). -/
theorem getElem?_programBytes (program : List Insn) (q : Nat) {j : Nat} (hj : j < 4) :
    (programBytes program)[4 * q + j]? = program[q]?.map fun w => byteOf w j := by
  induction program generalizing q with
  | nil => rfl
  | cons w ws ih =>
    cases q with
    | zero => interval_cases j <;> rfl
    | succ q =>
      rw [show 4 * (q + 1) + j = 4 * q + j + 4 by omega, List.getElem?_cons_succ, ← ih]
      rfl

/-- What a program's image holds: byte `j` of instruction number `q` at the cell `4 * q + j`, and nothing beyond. -/
theorem programImage_lookup (program : List Insn) (q : Nat) {j : Nat} (hj : j < 4) :
    Memory.lookup (programImage program) (4 * q + j) = program[q]?.map fun w => byteOf w j := by
  rw [programImage, imageOfBytes_lookup, if_pos (Nat.zero_le _), Nat.sub_zero, getElem?_programBytes program q hj]

/-- At an aligned address a fetch gives the word whose four bytes the image lists there, or none with none of them listed
(R47). -/
theorem State.fetchWord_of_bytes {s : State} {a : Nat} {w? : Option Insn} (ha : a % s.params.pcUnit.stride = 0)
    (h : ∀ j < 4, s.imem.lookup (s.imageOffset a + j) = w?.map fun w => byteOf w j) : s.fetchWord a = w? := by
  have h0 := h 0 (by decide)
  rw [Nat.add_zero] at h0
  rw [State.fetchWord, if_pos ha, h0, h 1 (by decide), h 2 (by decide), h 3 (by decide)]
  cases w? with
  | none => rfl
  | some w => exact congrArg some (insnOfBytes_byteOf w)

/-- At an address that is no multiple of the stride nothing is fetched (R48). -/
theorem State.fetchWord_of_misaligned {s : State} {a : Nat} (ha : a % s.params.pcUnit.stride ≠ 0) :
    s.fetchWord a = none := if_neg ha

/-! ### Where an instruction stops -/

/-- A multiply or square always has a step. -/
theorem State.commitProducts_ne_fault {s : State} {d : Reg} {p : Participation} {ww : Width} {v : DWord} {f : Fault} :
    s.commitProducts d p ww v ≠ .fault f := by
  unfold State.commitProducts
  split <;> nofun

/-- All the ways in which an instruction has no step: an access beyond data memory, or a jump to a misaligned target (R42,
R44). -/
theorem exec_fault_cases {i : Instr} {s : State} {f : Fault} (h : exec i s = .fault f) :
    (∃ ea, (i.loads = some ea ∨ i.stores = some ea) ∧ s.params.dmemWords ≤ ea.toNat ∧ f = .dmemOutOfRange) ∨
    (∃ a, i.branchTarget = some a ∧ a % s.params.pcUnit.stride ≠ 0 ∧ f = .misalignedTarget) := by
  cases i with
  | vand | vor | vxor | vnot | vmov | vadd | vsub => cases h
  | vrtth | vsll | vslli | vsrl | vsrli | vsra | vsrai => cases h
  | vmuleu | vmulou | vsqeu | vsqou => exact (State.commitProducts_ne_fault h).elim
  | vld rd imm =>
    rcases Nat.lt_or_ge imm.toNat s.params.dmemWords with hlt | hle
    · rw [exec_vld_of_lt hlt] at h; cases h
    · rw [exec_vld_of_le hle] at h
      injection h with h
      exact .inl ⟨zextAddr imm, .inl rfl, by rwa [toNat_zextAddr], h.symm⟩
  | vsd rs imm =>
    rcases Nat.lt_or_ge imm.toNat s.params.dmemWords with hlt | hle
    · rw [exec_vsd_of_lt hlt] at h; cases h
    · rw [exec_vsd_of_le hle] at h
      injection h with h
      exact .inl ⟨zextAddr imm, .inr rfl, by rwa [toNat_zextAddr], h.symm⟩
  | vbez rd imm => exact .inr ⟨imm.toNat, rfl, (State.branchIf_fault h).2⟩
  | vbnez rd imm => exact .inr ⟨imm.toNat, rfl, (State.branchIf_fault h).2⟩
  | vnop => cases h

/-- That the run has ended is no outcome of an instruction: only the fetch finds it (R194). -/
theorem exec_ne_runEnded (i : Instr) (s : State) : exec i s ≠ .fault .runEnded := by
  intro h
  rcases exec_fault_cases h with ⟨_, _, _, hf⟩ | ⟨_, _, _, hf⟩ <;> cases hf

end Sys2Proof.Machine

namespace Sys2Proof.Safety

open Sys2Proof.Machine

/-! ### What keeps the invariant -/

theorem Inv.advance {s : State} (h : Inv s) : Inv s.advance :=
  { h with
    pc_range := State.advance_pc_lt s
    pc_aligned := by
      rw [State.advance_pc, State.advance_params, Nat.mod_mod_of_dvd _ (stride_dvd_two_pow _ h.pc_width),
        Nat.add_mod_right, h.pc_aligned] }

theorem Inv.writeReg {s : State} (h : Inv s) (d : Reg) (v : DWord) : Inv (s.writeReg d v) where
  dmem_wf := by rw [State.writeReg_dmem]; exact h.dmem_wf
  imem_wf := by rw [State.writeReg_imem]; exact h.imem_wf
  dmem_range := by rw [State.writeReg_dmem, State.writeReg_params]; exact h.dmem_range
  pc_width := by rw [State.writeReg_params]; exact h.pc_width
  pc_range := by rw [State.writeReg_pc, State.writeReg_params]; exact h.pc_range
  pc_aligned := by rw [State.writeReg_pc, State.writeReg_params]; exact h.pc_aligned
  zero_register hz := by
    rw [State.writeReg_params] at hz
    rw [State.writeReg_regs_zero hz, h.zero_register hz]

/-- A store of a word below `DMEM_WORDS` defines no byte beyond them (R42). -/
theorem Inv.store {s : State} (h : Inv s) {ea : Addr} (hea : ea.toNat < s.params.dmemWords) (f : Nat → Byte) :
    Inv { s with dmem := s.dmem.writeBytes (8 * ea.toNat) 8 f } :=
  { h with
    dmem_wf := Memory.wf_writeBytes h.dmem_wf _ _ _
    dmem_range := fun c hc => by
      rcases Memory.mem_writeBytes hc with ⟨_, hlt⟩ | hold
      · show c.1 < 8 * s.params.dmemWords
        omega
      · exact h.dmem_range c hold }

/-- A branch target is aligned where the jump has a step, and fits a pc of 16 bits (R44, D2). -/
theorem Inv.jump {s : State} (h : Inv s) {a : Nat} (ha : a % s.params.pcUnit.stride = 0) (hlt : a < 2 ^ 16) :
    Inv { s with pc := a } :=
  { h with
    pc_range := lt_of_lt_of_le hlt (Nat.pow_le_pow_right (by decide) h.pc_width)
    pc_aligned := ha }

theorem Inv.exec {i : Instr} {s t : State} (h : Inv s) (hi : Machine.exec i s = .next t) : Inv t := by
  rcases exec_next_cases hi with rfl | ⟨d, v, _, rfl⟩ | ⟨ea, v, _, hea, rfl⟩ | ⟨a, ha, haligned, rfl⟩
  · exact h.advance
  · exact (h.writeReg d v).advance
  · exact (h.store hea (byteOf v)).advance
  · exact h.jump haligned (branchTarget_lt ha)

theorem Inv.step {s t : State} (h : Inv s) (hst : Machine.step s = .next t) : Inv t := by
  obtain ⟨w, _, ⟨reason, _, rfl⟩ | ⟨i, _, hi⟩⟩ := step_next_cases hst
  · exact h.advance
  · exact h.exec hi

end Sys2Proof.Safety
end

section
/-! PROOFS. The statements about the memories and the program image, settled. -/

namespace Sys2Proof.Proofs

open Sys2Proof.Machine
open Sys2Proof.Safety

/-- Settles O50, by all that a step can do (`Inv.step`). -/
theorem stepKeepsTheInvariant : Obligations.StepKeepsTheInvariant :=
  fun _ _ h hst => h.step hst

/-- Settles O33: the two words have no byte in common. -/
theorem storeLeavesOtherWords : Obligations.StoreLeavesOtherWords := by
  intro rs imm a s t h ha
  obtain ⟨_, rfl⟩ := exec_vsd_next h
  rw [State.advance_dmemWord, State.dmemWord_writeBytes_other s ha]

/-- Settles O47. -/
theorem noStepChangesTheProgram : Obligations.NoStepChangesTheProgram := by
  intro s t h
  obtain ⟨himem, hparams⟩ := step_imem_params h
  exact ⟨himem, hparams, State.fetchWord_congr himem hparams⟩

/-- Settles O53, from what a program's image holds (`programImage_lookup`). -/
theorem loadedProgramIsFetched : Obligations.LoadedProgramIsFetched := by
  intro p program data a
  by_cases ha : a % p.pcUnit.stride = 0
  · rw [if_pos ha]
    refine State.fetchWord_of_bytes ha fun j hj => ?_
    rw [State.imageOffset_of_aligned ha]
    exact programImage_lookup program _ hj
  · rw [if_neg ha]
    exact State.fetchWord_of_misaligned ha

/-- Settles O34: a 16-bit address is below 65536. -/
theorem accessSucceedsExactlyInRange : Obligations.AccessSucceedsExactlyInRange := by
  intro r imm s
  have inRange (h : imm.toNat < s.params.dmemWords) :
      (∃ t, exec (.vld r imm) s = .next t) ∧ (∃ t, exec (.vsd r imm) s = .next t) :=
    ⟨⟨_, exec_vld_of_lt h r⟩, ⟨_, exec_vsd_of_lt h r⟩⟩
  refine ⟨fun h => ⟨exec_vld_of_le h r, exec_vsd_of_le h r⟩, inRange, fun hsize => inRange ?_⟩
  rw [hsize]
  exact imm.isLt

/-- Settles O37: a taken branch is a jump, and every number is a multiple of 1. -/
theorem takenBranchIsStuckExactlyWhenMisaligned : Obligations.TakenBranchIsStuckExactlyWhenMisaligned := by
  intro rd imm s
  refine ⟨fun hzero => ?_, fun hne => ?_, fun hunit => ?_⟩
  · rw [exec_vbez_of_zero hzero, State.jump_eq_fault_iff]
  · rw [exec_vbnez_of_ne_zero hne, State.jump_eq_fault_iff]
  · rw [hunit]
    exact Nat.mod_one _

/-- Settles O42: with a word fetched, the step is a no-operation or an instruction, and neither ends the run. -/
theorem runEndsExactlyOutsideTheImage : Obligations.RunEndsExactlyOutsideTheImage := by
  intro s
  refine ⟨fun h => ?_, step_of_fetch_none⟩
  cases hf : s.fetchWord s.pc with
  | none => rfl
  | some w =>
    cases hd : decode w with
    | error reason =>
      rw [step_of_decode_error hf hd] at h
      cases h
    | ok i =>
      rw [step_of_decode_ok hf hd] at h
      exact absurd h (exec_ne_runEnded i s)

end Sys2Proof.Proofs
end

section
/-! PROOFS for the statements about the encoding (30_encoding.md). The rules that they share: what the decoder answers for
each major opcode, what it answers for an encoded word, and the fields that a decoded word has. -/

namespace Sys2Proof

/-! ### The decoder, by major opcode -/

/-- The major opcodes of the M layout (R62, R65). -/
def opcodesM : List (BitVec 6) := [0b100000, 0b100001, 0b100010, 0b100011]

theorem decode_of_opcodeR {w : Insn} (h : fieldOpcode w = 0b101010) : decode w = decodeR w := if_pos h

/-- The M layout: each of its opcodes stands for one instruction, whose word is the opcode, the register and the
immediate (R62). -/
theorem decode_of_opcodeM {w : Insn} (h : fieldOpcode w ∈ opcodesM) :
    ∃ make : Reg → BitVec 16 → Instr, decode w = decodeM w make ∧
      ∀ r imm, WellFormed (make r imm) = true ∧ encode (make r imm) = encodeM (fieldOpcode w) r imm := by
  simp only [opcodesM, List.mem_cons, List.not_mem_nil, or_false] at h
  rcases h with h | h | h | h
  · exact ⟨.vld, by simp [decode, h], fun _ _ => ⟨rfl, h ▸ rfl⟩⟩
  · exact ⟨.vsd, by simp [decode, h], fun _ _ => ⟨rfl, h ▸ rfl⟩⟩
  · exact ⟨.vbez, by simp [decode, h], fun _ _ => ⟨rfl, h ▸ rfl⟩⟩
  · exact ⟨.vbnez, by simp [decode, h], fun _ _ => ⟨rfl, h ▸ rfl⟩⟩

theorem decode_of_opcodeVnop {w : Insn} (h : fieldOpcode w = 0b111100) :
    decode w = if w = 0xF0000000 then .ok .vnop else .error .notExactlyVnop := by
  simp [decode, h]

theorem decode_of_unlisted {w : Insn} (hR : fieldOpcode w ≠ 0b101010) (hM : fieldOpcode w ∉ opcodesM)
    (hV : fieldOpcode w ≠ 0b111100) : decode w = .error .unlistedOpcode := by
  simp only [opcodesM, List.mem_cons, List.not_mem_nil, or_false, not_or] at hM
  obtain ⟨h0, h1, h2, h3⟩ := hM
  rw [decode, if_neg hR, if_neg h0, if_neg h1, if_neg h2, if_neg h3, if_neg hV]

/-! ### The decoder on an encoded word -/

theorem decode_encodeR (rd ra : Reg) (rb : BitVec 5) (ppp : Participation) (ww : Width) (fn : BitVec 6) :
    decode (encodeR rd ra rb ppp ww fn) = decodeFunction fn rd ra rb ppp ww := by
  rw [decode_of_opcodeR (fieldOpcode_encodeR ..)]
  simp [decodeR]

theorem decodeM_encodeM (op : BitVec 6) (r : Reg) (imm : BitVec 16) (make : Reg → BitVec 16 → Instr) :
    decodeM (encodeM op r imm) make = .ok (make r imm) := by
  simp [decodeM]

theorem notDouble_of_multiplies {ww : Width} (h : ww.multiplies = true) (i : Except IllegalWord Instr) :
    notDouble ww i = i := if_pos h

/-- Every well-formed instruction is read back from its word (R75, R76). -/
theorem decode_encode {i : Instr} (h : WellFormed i = true) : decode (encode i) = .ok i := by
  cases i with
  | vand | vor | vxor | vnot | vmov | vadd | vsub => exact decode_encodeR ..
  | vrtth | vsll | vslli | vsrl | vsrli | vsra | vsrai => exact decode_encodeR ..
  | vmuleu | vmulou | vsqeu | vsqou => exact (decode_encodeR ..).trans (notDouble_of_multiplies h _)
  | vld | vsd | vbez | vbnez => simp [decode, encode, decodeM_encodeM]
  | vnop => rfl

/-! ### The word of a decoded instruction -/

/-- What a word of format R decodes to is well-formed, and its word is the given one. -/
theorem decodeR_ok {w : Insn} {i : Instr} (hop : fieldOpcode w = 0b101010) (h : decodeR w = .ok i) :
    WellFormed i = true ∧ encode i = w := by
  unfold decodeR at h
  split at h
  · cases h
  · rename_i ppp hppp
    obtain ⟨hwf, henc⟩ := decodeFunction_ok h
    refine ⟨hwf, henc.trans ?_⟩
    calc encodeR _ _ (fieldRb w) ppp (Width.ofCode (fieldWw w)) (fieldFunction w)
      _ = fieldOpcode w ++ fieldRd w ++ fieldRa w ++ fieldRb w ++ fieldPpp w ++ fieldWw w ++ fieldFunction w := by
        simp only [encodeR, regCode_regOf, Width.code_ofCode, Participation.code_of_ofCode hppp, hop]
      _ = w := fields_append_R w

/-- A word whose M field is 00000 is its opcode, its register and its immediate. -/
theorem encodeM_fields {w : Insn} (hra : fieldRa w = 0) :
    encodeM (fieldOpcode w) (regOf (fieldRd w)) (fieldImm w) = w := by
  rw [encodeM, regCode_regOf, ← hra, fields_append_M]

/-- What a word decodes to is well-formed, and its word is the given one (R76, D11). -/
theorem decode_ok {w : Insn} {i : Instr} (h : decode w = .ok i) : WellFormed i = true ∧ encode i = w := by
  by_cases hR : fieldOpcode w = 0b101010
  · exact decodeR_ok hR (decode_of_opcodeR hR ▸ h)
  by_cases hM : fieldOpcode w ∈ opcodesM
  · obtain ⟨make, hdec, hmake⟩ := decode_of_opcodeM hM
    obtain ⟨hra, rfl⟩ := decodeM_ok (hdec ▸ h)
    obtain ⟨hwf, henc⟩ := hmake (regOf (fieldRd w)) (fieldImm w)
    exact ⟨hwf, henc.trans (encodeM_fields hra)⟩
  by_cases hV : fieldOpcode w = 0b111100
  · rw [decode_of_opcodeVnop hV] at h
    split at h
    · injection h with h
      subst h
      exact ⟨rfl, Eq.symm ‹_›⟩
    · cases h
  · rw [decode_of_unlisted hR hM hV] at h
    cases h

/-- The word of an instruction lies in its row of the opcode table (R75). -/
theorem encode_and_mask (i : Instr) : encode i &&& i.row.mask = i.row.bits := by
  cases i with
  | vand | vor | vxor | vadd | vsub | vmuleu | vmulou => exact encodeR_and ..
  | vsll | vslli | vsrl | vsrli | vsra | vsrai => exact encodeR_and ..
  | vnot | vmov | vsqeu | vsqou | vrtth => exact encodeR_and_oneSource ..
  | vld | vsd | vbez | vbnez => exact encodeM_and ..
  | vnop => rfl

/-! ### Which words are illegal -/

theorem oneSource_error_iff {rb : BitVec 5} {i : Instr} : (∃ r, oneSource rb i = .error r) ↔ rb ≠ 0 := by
  unfold oneSource
  split <;> simp_all

theorem notDouble_error_iff {ww : Width} {x : Except IllegalWord Instr} :
    (∃ r, notDouble ww x = .error r) ↔ ww = .d ∨ ∃ r, x = .error r := by
  cases ww <;> simp [notDouble, Width.multiplies]

/-- Which function codes check nothing, the rB field, the width, or both; the others are not in the table (R75). -/
theorem function_cases (fn : BitVec 6) :
    fn ∈ ([1, 2, 3, 6, 7, 13, 14, 15, 16, 17, 18] : List (BitVec 6)) ∨ fn ∈ ([4, 5, 12] : List (BitVec 6)) ∨
      fn ∈ ([8, 9] : List (BitVec 6)) ∨ fn ∈ ([10, 11] : List (BitVec 6)) ∨ fn = 0 ∨ 18 < fn.toNat := by
  revert fn; decide

theorem decodeFunction_of_unlisted {fn : BitVec 6} (h : fn = 0 ∨ 18 < fn.toNat) (rd ra : Reg) (rb : BitVec 5)
    (ppp : Participation) (ww : Width) :
    decodeFunction fn rd ra rb ppp ww = .error .unlistedFunction := by
  have hne (n : BitVec 6) (hn : 0 < n.toNat ∧ n.toNat ≤ 18) : fn ≠ n := by
    rintro rfl
    rcases h with rfl | h
    · exact absurd hn.1 (by decide)
    · omega
  simp [decodeFunction, hne]

/-- Where the function field and the fields that it checks make a word of format R illegal (R67, R76). -/
theorem decodeFunction_error_iff {fn : BitVec 6} {rd ra : Reg} {rb : BitVec 5} {ppp : Participation} {ww : Width} :
    (∃ r, decodeFunction fn rd ra rb ppp ww = .error r) ↔
      fn = 0 ∨ 18 < fn.toNat ∨ (fn ∈ ([4, 5, 10, 11, 12] : List (BitVec 6)) ∧ rb ≠ 0) ∨
        (fn ∈ ([8, 9, 10, 11] : List (BitVec 6)) ∧ ww = .d) := by
  have h := function_cases fn
  simp only [List.mem_cons, List.not_mem_nil, or_false] at h
  rcases h with h | h | h | h | h
  · rcases h with rfl | rfl | rfl | rfl | rfl | rfl | rfl | rfl | rfl | rfl | rfl <;> simp [decodeFunction]
  · rcases h with rfl | rfl | rfl <;> simp [decodeFunction, oneSource_error_iff]
  · rcases h with rfl | rfl <;> simp [decodeFunction, notDouble_error_iff]
  · rcases h with rfl | rfl <;> simp [decodeFunction, notDouble_error_iff, oneSource_error_iff, or_comm]
  · exact iff_of_true ⟨_, decodeFunction_of_unlisted h ..⟩ (h.imp_right .inl)

theorem Participation.ofCode_eq_none_iff (c : BitVec 3) : Participation.ofCode c = none ↔ 4 < c.toNat := by
  revert c; decide

theorem Width.ofCode_eq_d_iff (c : BitVec 2) : Width.ofCode c = .d ↔ c = 0b11 := by
  revert c; decide

theorem decodeR_error_iff {w : Insn} :
    (∃ r, decodeR w = .error r) ↔
      fieldFunction w = 0 ∨ 18 < (fieldFunction w).toNat ∨ 4 < (fieldPpp w).toNat ∨
        (fieldFunction w ∈ ([4, 5, 10, 11, 12] : List (BitVec 6)) ∧ fieldRb w ≠ 0) ∨
        (fieldFunction w ∈ ([8, 9, 10, 11] : List (BitVec 6)) ∧ fieldWw w = 0b11) := by
  rw [← Participation.ofCode_eq_none_iff, ← Width.ofCode_eq_d_iff]
  unfold decodeR
  cases hppp : Participation.ofCode (fieldPpp w) with
  | none => simp
  | some ppp => simp [decodeFunction_error_iff]

theorem decodeM_error_iff {w : Insn} {make : Reg → BitVec 16 → Instr} :
    (∃ r, decodeM w make = .error r) ↔ fieldRa w ≠ 0 := by
  unfold decodeM
  split <;> simp_all

/-! ### A word as the integer of its fields -/

/-- Format R as a number: each field shifted to its place (R61). -/
theorem encodeR_eq_wordR (rd ra : Reg) (rb : BitVec 5) (ppp : Participation) (ww : Width) (fn : BitVec 6) :
    encodeR rd ra rb ppp ww fn = Safety.wordR rd ra rb.toNat ppp ww fn.toNat := by
  have hfields : (encodeR rd ra rb ppp ww fn).toNat = (0x2A <<< 26) ||| (rd.val <<< 21) ||| (ra.val <<< 16) |||
      (rb.toNat <<< 11) ||| (ppp.code.toNat <<< 8) ||| (ww.code.toNat <<< 6) ||| fn.toNat := by
    simp only [encodeR, BitVec.toNat_append, Nat.shiftLeft_or_distrib, ← Nat.shiftLeft_add]
    rfl
  rw [Safety.wordR, ← hfields, BitVec.ofNat_toNat, BitVec.setWidth_eq]

/-- The M layout as a number (R62). -/
theorem encodeM_eq_wordM (op : BitVec 6) (r : Reg) (imm : BitVec 16) :
    encodeM op r imm = Safety.wordM op.toNat r imm := by
  have hfields : (encodeM op r imm).toNat = (op.toNat <<< 26) ||| (r.val <<< 21) ||| imm.toNat := by
    simp only [encodeM, BitVec.toNat_append, Nat.shiftLeft_or_distrib, ← Nat.shiftLeft_add,
      BitVec.ofNat_eq_ofNat, BitVec.toNat_ofNat, Nat.zero_mod, Nat.or_zero]
    rfl
  rw [Safety.wordM, ← hfields, BitVec.ofNat_toNat, BitVec.setWidth_eq]

end Sys2Proof
end

section
/-! PROOFS for the statements about assembler text (R79 to R81): a mnemonic of format R is its base name and a suffix of two
letters, so each can be read off it. -/

namespace Sys2Proof

theorem suffix_length (p : Participation) (ww : Width) : (suffix p ww).toList.length = 2 := by
  cases p <;> cases ww <;> rfl

/-- Two mnemonics are the same where their base names and their suffixes are. -/
theorem append_suffix_inj {a b : String} {p q : Participation} {ww vv : Width} :
    a ++ suffix p ww = b ++ suffix q vv ↔ a = b ∧ suffix p ww = suffix q vv := by
  refine ⟨fun h => ?_, fun ⟨hab, hs⟩ => by rw [hab, hs]⟩
  have hlist := congrArg String.toList h
  rw [String.toList_append, String.toList_append] at hlist
  obtain ⟨hbase, hsuffix⟩ := List.append_inj' hlist ((suffix_length p ww).trans (suffix_length q vv).symm)
  exact ⟨String.toList_inj.1 hbase, String.toList_inj.1 hsuffix⟩

theorem find?_suffix (p : Participation) (ww : Width) :
    allSuffixes.find? (fun x => suffix x.1 x.2 == suffix p ww) = some (p, ww) := by
  cases p <;> cases ww <;> decide

/-- Reading the suffix off a mnemonic, with the right base name or with another. -/
theorem suffixOf_append_suffix (base b : String) (p : Participation) (ww : Width) :
    suffixOf base (b ++ suffix p ww) = if base = b then some (p, ww) else none := by
  unfold suffixOf
  split
  · subst base
    rw [← find?_suffix p ww]
    congr 1
    funext x
    rw [Bool.eq_iff_iff, beq_iff_eq, beq_iff_eq, append_suffix_inj]
    exact and_iff_right rfl
  · refine List.find?_eq_none.2 fun x _ hx => ?_
    exact absurd (append_suffix_inj.1 (beq_iff_eq.1 hx)).1 ‹_›

/-- A mnemonic of format R is read as its base name's entry in the table and its suffix (R79). -/
theorem spelled_append_suffix {α : Type} (table : List (String × α)) (base : String) (p : Participation) (ww : Width) :
    spelled table (base ++ suffix p ww) = (table.lookup base).map fun x => (x, p, ww) := by
  induction table with
  | nil => rfl
  | cons entry rest ih =>
    obtain ⟨b, x⟩ := entry
    rw [spelled, suffixOf_append_suffix, List.lookup_cons]
    by_cases hb : b = base
    · subst hb; simp
    · rw [if_neg hb, beq_false_of_ne (Ne.symm hb)]
      exact ih

/-! ### Reading a line, by its operands (R80) -/

section Lines

variable {base : String} (rd ra rb : Reg) {p : Participation} {ww : Width}

theorem assemble_threeRegisters {make : Reg → Reg → Reg → Participation → Width → Instr}
    (hb : threeRegisters.lookup base = some make) (hw : WellFormed (make rd ra rb p ww) = true) :
    assemble ⟨base ++ suffix p ww, [.reg rd, .reg ra, .reg rb]⟩ = some (make rd ra rb p ww) := by
  simp [assemble, spelled_append_suffix, hb, hw]

theorem assemble_twoRegisters {make : Reg → Reg → Participation → Width → Instr}
    (hb : twoRegisters.lookup base = some make) (hw : WellFormed (make rd ra p ww) = true) :
    assemble ⟨base ++ suffix p ww, [.reg rd, .reg ra]⟩ = some (make rd ra p ww) := by
  simp [assemble, spelled_append_suffix, hb, hw]

theorem assemble_shiftImmediates {make : Reg → Reg → BitVec 5 → Participation → Width → Instr} (sh : BitVec 5)
    (hb : shiftImmediates.lookup base = some make) (hw : WellFormed (make rd ra sh p ww) = true) :
    assemble ⟨base ++ suffix p ww, [.reg rd, .reg ra, .dec sh.toNat]⟩ = some (make rd ra sh p ww) := by
  have hsh : sh.toNat < 32 := sh.isLt
  simp [assemble, spelled_append_suffix, hb, hw, hsh]

theorem assemble_addressed {mnemonic name : String} {make : Reg → BitVec 16 → Instr} (imm : BitVec 16)
    (hm : addressed.find? (·.1 == mnemonic) = some (name, make)) (hw : WellFormed (make rd imm) = true) :
    assemble ⟨mnemonic, [.reg rd, .dec imm.toNat]⟩ = some (make rd imm) := by
  have himm : imm.toNat < 65536 := imm.isLt
  simp [assemble, assembleAddressed, hm, hw, himm]

end Lines

/-- Every well-formed instruction is read back from the line it is written as. -/
theorem assemble_asm {i : Instr} (h : WellFormed i = true) : assemble i.asm = some i := by
  cases i with
  | vand | vor | vxor | vadd | vsub | vsll | vsrl | vsra => exact assemble_threeRegisters _ _ _ rfl rfl
  | vmuleu | vmulou => exact assemble_threeRegisters _ _ _ rfl h
  | vnot | vmov | vrtth => exact assemble_twoRegisters _ _ rfl rfl
  | vsqeu | vsqou => exact assemble_twoRegisters _ _ rfl h
  | vslli | vsrli | vsrai => exact assemble_shiftImmediates _ _ _ rfl rfl
  | vld | vsd | vbez | vbnez => exact assemble_addressed _ _ rfl rfl
  | vnop => rfl

end Sys2Proof
end

section
/-! PROOFS for the statements about the control fields PPP and WW (R66 to R72): which bits of a subfield a masked write takes,
and what a multiply of 64 bits does. -/

namespace Sys2Proof

open Sys2Proof.Safety

/-! ### Participation -/

/-- A byte of a merged register is the new one or the old one (R70). -/
theorem subfield_merge_byte (p : Participation) (old v : DWord) {j : Nat} (hj : j < 8) :
    subfield 8 (p.merge old v) j = if p.part j then subfield 8 v j else subfield 8 old j := by
  apply BitVec.eq_of_getLsbD_eq
  intro i hi
  have hbyte : 7 - (64 - 8 * (j + 1) + i) / 8 = j := by omega
  rw [getLsbD_subfield, getLsbD_merge p old v (by omega), hbyte]
  split <;> rw [getLsbD_subfield]

/-- The bits of a subfield in the register lie in the register. -/
theorem subfield_bit_lt {size k i : Nat} (hk : size * (k + 1) ≤ 64) (hi : i < size) : 64 - size * (k + 1) + i < 64 := by
  have : size ≤ size * (k + 1) := Nat.le_mul_of_pos_right _ k.succ_pos
  omega

/-- A subfield of a merged register, by the same subfield of the mask. -/
theorem subfield_merge (p : Participation) (old v : DWord) {size k : Nat} (hk : size * (k + 1) ≤ 64) :
    subfield size (p.merge old v) k =
      (subfield size old k &&& ~~~subfield size p.mask k) ||| (subfield size v k &&& subfield size p.mask k) := by
  apply BitVec.eq_of_getLsbD_eq
  intro i hi
  simp [-BitVec.getLsbD_eq_getElem, getLsbD_subfield, Participation.merge, hi, subfield_bit_lt hk hi]

theorem subfield_zero (size k : Nat) : subfield size 0 k = 0 := by
  simp [subfield]

theorem subfield_allOnes {size k : Nat} (hk : size * (k + 1) ≤ 64) :
    subfield size (BitVec.allOnes 64) k = BitVec.allOnes size := by
  apply BitVec.eq_of_getLsbD_eq
  intro i hi
  rw [getLsbD_subfield, BitVec.getLsbD_allOnes, BitVec.getLsbD_allOnes, decide_eq_true (subfield_bit_lt hk hi),
    Bool.and_true]

/-- Ones merged into zeros are the mask itself. -/
theorem merge_zero_allOnes (p : Participation) : p.merge 0 (BitVec.allOnes 64) = p.mask := by
  simp only [Participation.merge, BitVec.ofNat_eq_ofNat, BitVec.zero_and, BitVec.allOnes_and, BitVec.zero_or]

theorem subfield_merge_eq_new_iff (p : Participation) {size k : Nat} (hk : size * (k + 1) ≤ 64) :
    (∀ old v, subfield size (p.merge old v) k = subfield size v k) ↔ subfield size p.mask k = BitVec.allOnes size := by
  refine ⟨fun h => ?_, fun h old v => ?_⟩
  · have hones := h 0 (BitVec.allOnes 64)
    rwa [merge_zero_allOnes, subfield_allOnes hk] at hones
  · simp [subfield_merge p old v hk, h]

theorem subfield_merge_eq_old_iff (p : Participation) {size k : Nat} (hk : size * (k + 1) ≤ 64) :
    (∀ old v, subfield size (p.merge old v) k = subfield size old k) ↔ subfield size p.mask k = 0 := by
  refine ⟨fun h => ?_, fun h old v => ?_⟩
  · have hzeros := h 0 (BitVec.allOnes 64)
    rwa [merge_zero_allOnes, subfield_zero] at hzeros
  · simp [subfield_merge p old v hk, h]

/-- The combinations of U6 are those in which a subfield of the mask is neither all ones nor zero. -/
theorem straddles_eq_false_iff (p : Participation) {size k : Nat} (hsize : size = 8 ∨ size = 16 ∨ size = 32 ∨ size = 64)
    (hk : size * (k + 1) ≤ 64) :
    straddles p size = false ↔ subfield size p.mask k = BitVec.allOnes size ∨ subfield size p.mask k = 0 := by
  have bytes : ∀ k < 8, straddles p 8 = false ↔
      subfield 8 p.mask k = BitVec.allOnes 8 ∨ subfield 8 p.mask k = 0 := by cases p <;> decide
  have halves : ∀ k < 4, straddles p 16 = false ↔
      subfield 16 p.mask k = BitVec.allOnes 16 ∨ subfield 16 p.mask k = 0 := by cases p <;> decide
  have words : ∀ k < 2, straddles p 32 = false ↔
      subfield 32 p.mask k = BitVec.allOnes 32 ∨ subfield 32 p.mask k = 0 := by cases p <;> decide
  have doubles : ∀ k < 1, straddles p 64 = false ↔
      subfield 64 p.mask k = BitVec.allOnes 64 ∨ subfield 64 p.mask k = 0 := by cases p <;> decide
  rcases hsize with rfl | rfl | rfl | rfl
  · exact bytes k (by omega)
  · exact halves k (by omega)
  · exact words k (by omega)
  · exact doubles k (by omega)

end Sys2Proof

namespace Sys2Proof.Machine

open Sys2Proof.Safety

/-! ### No-operation -/

theorem advance_onlyAdvances (s : State) : OnlyAdvances s s.advance :=
  ⟨fun _ => rfl, ⟨fun _ => rfl, fun _ => rfl, rfl, rfl⟩, rfl⟩

end Sys2Proof.Machine
end

section
/-! PROOFS. The statements about the encoding, settled. -/

namespace Sys2Proof.Proofs

open Sys2Proof.Machine
open Sys2Proof.Safety

/-- Settles O1. -/
theorem decodeOfEncodeIsTheInstruction : Obligations.DecodeOfEncodeIsTheInstruction :=
  fun _ h => decode_encode h

/-- Settles O2. -/
theorem encodeOfDecodeIsTheWord : Obligations.EncodeOfDecodeIsTheWord :=
  fun _ _ h => decode_ok h

/-- Settles O8: the word is the instruction's encoding, which lies in its row. -/
theorem decodedWordMatchesItsRow : Obligations.DecodedWordMatchesItsRow := by
  intro w i h
  obtain ⟨_, rfl⟩ := decode_ok h
  exact encode_and_mask i

/-- Settles O7, by the four kinds of major opcode. -/
theorem illegalWordsAreThoseListed : Obligations.IllegalWordsAreThoseListed := by
  intro w
  by_cases hR : fieldOpcode w = 0b101010
  · rw [decode_of_opcodeR hR, decodeR_error_iff]
    simp [hR]
  by_cases hM : fieldOpcode w ∈ opcodesM
  · obtain ⟨make, hdec, _⟩ := decode_of_opcodeM hM
    have hV : fieldOpcode w ≠ 0b111100 := fun h => absurd (h ▸ hM) (by decide)
    have hlisted : fieldOpcode w ∈ opcodesM ++ [0b101010, 0b111100] := List.mem_append_left _ hM
    rw [hdec, decodeM_error_iff]
    simp only [opcodesM, List.cons_append, List.nil_append] at hM hlisted
    tauto
  by_cases hV : fieldOpcode w = 0b111100
  · rw [decode_of_opcodeVnop hV]
    split <;> simp_all
  · rw [decode_of_unlisted hR hM hV]
    have hlisted : fieldOpcode w ∉ opcodesM ++ [0b101010, 0b111100] :=
      List.not_mem_append hM (by simpa using ⟨hR, hV⟩)
    exact iff_of_true ⟨_, rfl⟩ (.inl hlisted)

/-- Settles O9. -/
theorem assemblyReadsBack : Obligations.AssemblyReadsBack :=
  fun _ h => assemble_asm h

/-- Settles O12. -/
theorem maskedWriteIsBytewise : Obligations.MaskedWriteIsBytewise := by
  intro p s d v hd
  have hmerge : (s.writeMasked d p v).readReg d = p.merge (s.readReg d) v := by
    rw [State.writeMasked, State.readReg_writeReg_of_kept hd, if_pos rfl]
  refine ⟨fun j hj => ?_, hmerge, ?_, fun r hr => State.readReg_writeReg_other hr _⟩
  · rw [hmerge, subfield_merge_byte p _ _ hj]
  · rw [State.writeMasked, merge_all]

/-- Settles O13: whether a subfield is wholly written or wholly kept is read off its bits of the mask. -/
theorem subfieldIsWholeUnlessListed : Obligations.SubfieldIsWholeUnlessListed := by
  intro p size k hsize hk
  rw [subfield_merge_eq_new_iff p hk, subfield_merge_eq_old_iff p hk]
  exact straddles_eq_false_iff p hsize hk

/-- Settles O3, from the one formula of the format (`encodeR_eq_wordR`). -/
theorem formatRWordIsTheInteger : Obligations.FormatRWordIsTheInteger := by
  intro rd ra rb sh p ww
  have reg (fn : BitVec 6) : encodeR rd ra (regCode rb) p ww fn = wordR rd ra rb.val p ww fn.toNat :=
    encodeR_eq_wordR ..
  have zero (fn : BitVec 6) : encodeR rd ra 0 p ww fn = wordR rd ra 0 p ww fn.toNat := encodeR_eq_wordR ..
  have shift (fn : BitVec 6) : encodeR rd ra sh p ww fn = wordR rd ra sh.toNat p ww fn.toNat := encodeR_eq_wordR ..
  exact ⟨reg 1, reg 2, reg 3, zero 4, zero 5, reg 6, reg 7, reg 8, reg 9, zero 10, zero 11, zero 12, reg 13, shift 14,
    reg 15, shift 16, reg 17, shift 18⟩

/-- Settles O4, from the one formula of the layout (`encodeM_eq_wordM`). -/
theorem formatMWordIsTheInteger : Obligations.FormatMWordIsTheInteger :=
  fun r imm => ⟨encodeM_eq_wordM 0b100000 r imm, encodeM_eq_wordM 0b100001 r imm, encodeM_eq_wordM 0b100010 r imm,
    encodeM_eq_wordM 0b100011 r imm⟩

/-- Settles O5: a word that decodes to VNOP is VNOP's encoding. -/
theorem vnopIsOneWord : Obligations.VnopIsOneWord := by
  refine ⟨rfl, fun w => ⟨fun h => ?_, ?_⟩⟩
  · exact (decode_ok h).2.symm
  · rintro rfl
    exact decode_encode (i := .vnop) rfl

/-- Settles O6: each word is its instruction's encoding. -/
theorem writtenOutWordsDecode : Obligations.WrittenOutWordsDecode :=
  ⟨decode_encode (i := .vand 1 2 3 .all .w) rfl, decode_encode (i := .vadd 1 2 3 .upper .w) rfl,
    decode_encode (i := .vsqeu 1 2 .lower .w) rfl, decode_encode (i := .vslli 31 30 31 .odd .d) rfl,
    decode_encode (i := .vsrai 0 0 0 .even .b) rfl, decode_encode (i := .vld 31 0xFFFF) rfl,
    decode_encode (i := .vsd 1 0x10) rfl, decode_encode (i := .vbez 1 5) rfl⟩

/-- Settles O10: each entry of the table is a closed fact of its column. -/
theorem participationIsTheTable : Obligations.ParticipationIsTheTable := by
  refine ⟨?codes, ?masks, ?bytes, ?letters⟩
  case codes => decide
  case masks => exact ⟨rfl, rfl, rfl, rfl, rfl⟩
  case bytes => decide
  case letters => exact ⟨rfl, rfl, rfl, rfl, rfl⟩

/-- Settles O14: none of the five meanings looks at the width. -/
theorem bitwiseInstructionsIgnoreWidth : Obligations.BitwiseInstructionsIgnoreWidth :=
  fun _ _ _ _ _ _ _ => ⟨rfl, rfl, rfl, rfl, rfl⟩

/-- Settles O22: at 64 bits the commit of products is the no-operation (R67). -/
theorem multiplyAtFullWidthDoesNothing : Obligations.MultiplyAtFullWidthDoesNothing := by
  intro rd ra rb p s
  have advances (i : Instr) (hi : exec i s = s.noOperation) : ∃ t, exec i s = .next t ∧ OnlyAdvances s t :=
    ⟨s.advance, hi, advance_onlyAdvances s⟩
  exact ⟨advances _ rfl, advances _ rfl, advances _ rfl, advances _ rfl⟩

end Sys2Proof.Proofs
end

section
/-! PROOFS. The logical and move instructions (40_logical.md). First what a commit leaves behind, which every R-type instruction
shares (R71): the bytes of the masked write (O12), the frame, and the whole register under PPP = 000. -/

namespace Sys2Proof.Machine

open Sys2Proof.Safety

/-- A write to a register leaves both memories as they were, and so does the advance of the pc. -/
theorem writeReg_advance_memoryKept (s : State) (d : Reg) (v : DWord) : MemoryKept s (s.writeReg d v).advance := by
  have hdmem : (s.writeReg d v).advance.dmem = s.dmem := State.writeReg_dmem ..
  have himem : (s.writeReg d v).advance.imem = s.imem := State.writeReg_imem ..
  have hparams : (s.writeReg d v).advance.params = s.params := State.writeReg_params ..
  exact ⟨State.dmemByte_congr hdmem, State.fetchWord_congr himem hparams, himem, hparams⟩

/-- A masked write followed by the advance is a commit in the sense of the claims (R70, R71). -/
theorem writeMasked_advance_commits (s : State) (d : Reg) (p : Participation) (v : DWord) :
    Commits s (s.writeMasked d p v).advance d p v := by
  refine ⟨fun hd => ?_, fun hd j hj => ?_, fun r hr => ?_, writeReg_advance_memoryKept .., ?_⟩
  · rw [State.advance_readReg, State.writeMasked, State.writeReg_of_discards hd, State.readReg_hardwired hd]
  · obtain ⟨hbytes, _⟩ := Proofs.maskedWriteIsBytewise p s d v hd
    exact hbytes j hj
  · rw [State.advance_readReg, State.writeMasked, State.readReg_writeReg_other hr]
  · rw [State.advance_pc, State.writeMasked_pc, State.writeMasked_params, pcAfter]

/-- The end of an R-type instruction always has a next state, which commits the result. -/
theorem State.commit_commits (s : State) (d : Reg) (p : Participation) (v : DWord) :
    ∃ t, s.commit d p v = .next t ∧ Commits s t d p v :=
  ⟨_, rfl, writeMasked_advance_commits s d p v⟩

end Sys2Proof.Machine

namespace Sys2Proof.Safety

open Sys2Proof.Machine

/-- Under PPP = 000 the register holds the result whole. -/
theorem Commits.readReg_of_all {s t : State} {d : Reg} {v : DWord} (h : Commits s t d .all v) (hd : ¬ Discards s d) :
    t.readReg d = v := by
  obtain ⟨_, hbytes, _⟩ := h
  exact eq_of_subfields (size := 8) (n := 8) (by decide) rfl fun j hj => hbytes hd j hj

/-- Under PPP = 000 a result of 0 leaves 0, in a hardwired register 0 too. -/
theorem Commits.readReg_eq_zero {s t : State} {d : Reg} (h : Commits s t d .all 0) : t.readReg d = 0 := by
  by_cases hd : Discards s d
  · obtain ⟨hdropped, _⟩ := h
    exact hdropped hd
  · exact h.readReg_of_all hd

end Sys2Proof.Safety

namespace Sys2Proof.Proofs

open Sys2Proof.Machine
open Sys2Proof.Safety

/-- Settles O15: each of the three meanings is the commit of its bitwise result. -/
theorem bitwiseTwoSourceResults : Obligations.BitwiseTwoSourceResults := by
  intro rd ra rb p ww s
  refine ⟨?vand, ?vor, ?vxor⟩
  case vand => exact s.commit_commits rd p (s.readReg ra &&& s.readReg rb)
  case vor => exact s.commit_commits rd p (s.readReg ra ||| s.readReg rb)
  case vxor => exact s.commit_commits rd p (s.readReg ra ^^^ s.readReg rb)

/-- Settles O16: each of the two meanings is the commit of its result. -/
theorem bitwiseOneSourceResults : Obligations.BitwiseOneSourceResults := by
  intro rd ra p ww s
  refine ⟨?vnot, ?vmov⟩
  case vnot => exact s.commit_commits rd p (~~~(s.readReg ra))
  case vmov => exact s.commit_commits rd p (s.readReg ra)

/-- Settles O17: what VXOR commits (O15) is here rA XOR rA, which is 0. -/
theorem vxorWithItselfClears : Obligations.VxorWithItselfClears := by
  intro rd ra ww s t h
  obtain ⟨_, _, u, hu, hcommits⟩ := bitwiseTwoSourceResults rd ra ra .all ww s
  obtain rfl : u = t := Host.Outcome.next.inj (hu.symm.trans h)
  rw [BitVec.xor_self] at hcommits
  exact hcommits.readReg_eq_zero

end Sys2Proof.Proofs
end

section
/-! PROOFS. Add and subtract (41_arithmetic.md), and the isolation of subfields that every lane-wise instruction shares (R112,
R139). First a subfield of each bitwise result, then what a commit leaves in one subfield. -/

namespace Sys2Proof

/-! ### Subfields -/

theorem subfield_and (size : Nat) (a b : DWord) (k : Nat) :
    subfield size (a &&& b) k = subfield size a k &&& subfield size b k := BitVec.extractLsb'_and

theorem subfield_or (size : Nat) (a b : DWord) (k : Nat) :
    subfield size (a ||| b) k = subfield size a k ||| subfield size b k := BitVec.extractLsb'_or

theorem subfield_xor (size : Nat) (a b : DWord) (k : Nat) :
    subfield size (a ^^^ b) k = subfield size a k ^^^ subfield size b k := BitVec.extractLsb'_xor

/-- The subfields that an instruction works on lie in the register (R66). -/
theorem Width.size_mul_succ_le (ww : Width) {k : Nat} (hk : k < ww.count) : ww.size * (k + 1) ≤ 64 :=
  ww.size_mul_count ▸ Nat.mul_le_mul_left _ hk

theorem subfield_not {size k : Nat} (hk : size * (k + 1) ≤ 64) (a : DWord) :
    subfield size (~~~a) k = ~~~(subfield size a k) := by
  rw [← BitVec.xor_allOnes, subfield_xor, subfield_allOnes hk, BitVec.xor_allOnes]

/-- A subfield of the merged register depends on that subfield alone of the old value and of the result (R70). -/
theorem subfield_merge_congr (p : Participation) {size k : Nat} (hk : size * (k + 1) ≤ 64) {old₁ old₂ v₁ v₂ : DWord}
    (hold : subfield size old₁ k = subfield size old₂ k) (hv : subfield size v₁ k = subfield size v₂ k) :
    subfield size (p.merge old₁ v₁) k = subfield size (p.merge old₂ v₂) k := by
  rw [subfield_merge p _ _ hk, subfield_merge p _ _ hk, hold, hv]

theorem subfield_mapLanes_congr {ww : Width} {k : Nat} (hk : k < ww.count) (f : BitVec ww.size → BitVec ww.size)
    {a₁ a₂ : DWord} (ha : subfield ww.size a₁ k = subfield ww.size a₂ k) :
    subfield ww.size (mapLanes ww f a₁) k = subfield ww.size (mapLanes ww f a₂) k := by
  rw [subfield_mapLanes ww f _ hk, subfield_mapLanes ww f _ hk, ha]

theorem subfield_zipLanes_congr {ww : Width} {k : Nat} (hk : k < ww.count)
    (f : BitVec ww.size → BitVec ww.size → BitVec ww.size) {a₁ a₂ b₁ b₂ : DWord}
    (ha : subfield ww.size a₁ k = subfield ww.size a₂ k) (hb : subfield ww.size b₁ k = subfield ww.size b₂ k) :
    subfield ww.size (zipLanes ww f a₁ b₁) k = subfield ww.size (zipLanes ww f a₂ b₂) k := by
  rw [subfield_zipLanes ww f _ _ hk, subfield_zipLanes ww f _ _ hk, ha, hb]

/-! ### Subtraction -/

/-- "addition of contents of rA with the 2's complement value of corresponding value of rB" (R111) is subtraction. -/
theorem add_not_add_one {w : Nat} (a b : BitVec w) : a + ~~~b + 1 = a - b := by
  rw [BitVec.add_assoc, BitVec.sub_eq_add_neg, BitVec.neg_eq_not_add]
  rfl

/-- Subtraction of words is subtraction of integers modulo 2^w. -/
theorem toNat_sub_eq_emod {w : Nat} (a b : BitVec w) : ((a - b).toNat : Int) = (a.toNat - b.toNat : Int) % 2 ^ w := by
  have hb : b.toNat ≤ 2 ^ w := b.isLt.le
  calc ((a - b).toNat : Int)
      = ((2 ^ w - b.toNat) + a.toNat : Int) % 2 ^ w := by rw [BitVec.toNat_sub]; push_cast [hb]; rfl
    _ = ((a.toNat - b.toNat) + 2 ^ w : Int) % 2 ^ w := by congr 1; ring
    _ = (a.toNat - b.toNat : Int) % 2 ^ w := Int.add_emod_right ..

end Sys2Proof

namespace Sys2Proof.Machine

open Sys2Proof.Safety

/-! ### Commits -/

/-- An operation on the subfields of two registers always has a next state, which commits the result that has the operation's
value in each subfield. -/
theorem State.commit_zipLanes_commits (s : State) (d ra rb : Reg) (p : Participation) (ww : Width)
    (f : BitVec ww.size → BitVec ww.size → BitVec ww.size) :
    ∃ t v, s.commit d p (zipLanes ww f (s.readReg ra) (s.readReg rb)) = .next t ∧
      (∀ k < ww.count, subfield ww.size v k = f (subfield ww.size (s.readReg ra) k) (subfield ww.size (s.readReg rb) k)) ∧
      Commits s t d p v := by
  obtain ⟨t, hnext, hcommits⟩ := s.commit_commits d p (zipLanes ww f (s.readReg ra) (s.readReg rb))
  exact ⟨t, _, hnext, fun _ hk => subfield_zipLanes ww f _ _ hk, hcommits⟩

/-- Every general register holds the same subfield `k` of `size` bits in the two states. -/
def AgreeOnSubfield (size k : Nat) (s₁ s₂ : State) : Prop :=
  ∀ r, subfield size (s₁.readReg r) k = subfield size (s₂.readReg r) k

section Agreement

/-! ### Two states with the same parameters that agree on one subfield -/

variable {s₁ s₂ t₁ t₂ : State} (hp : s₁.params = s₂.params)
include hp

/-- A commit keeps the agreement on a subfield in which the two results agree, under any PPP. -/
theorem AgreeOnSubfield.commit {size k : Nat} (hs : AgreeOnSubfield size k s₁ s₂) (hk : size * (k + 1) ≤ 64) {d : Reg}
    {p : Participation} {v₁ v₂ : DWord} (hv : subfield size v₁ k = subfield size v₂ k)
    (h₁ : s₁.commit d p v₁ = .next t₁) (h₂ : s₂.commit d p v₂ = .next t₂) : AgreeOnSubfield size k t₁ t₂ := by
  injection h₁ with h₁
  injection h₂ with h₂
  subst h₁ h₂
  intro r
  rw [State.advance_readReg, State.advance_readReg, State.readReg_writeMasked, State.readReg_writeMasked, hp]
  split
  · exact subfield_merge_congr p hk (hs d) hv
  · exact hs r

/-- An instruction that works subfield by subfield keeps the agreement on each subfield of its width: its result there is made
from that subfield of its sources alone. -/
theorem AgreeOnSubfield.exec {i : Instr} {ww : Width} {k : Nat} (hs : AgreeOnSubfield ww.size k s₁ s₂)
    (hi : i.laneWidth = some ww) (hk : k < ww.count) (h₁ : Machine.exec i s₁ = .next t₁)
    (h₂ : Machine.exec i s₂ = .next t₂) : AgreeOnSubfield ww.size k t₁ t₂ := by
  have hle := ww.size_mul_succ_le hk
  cases i with
  | vand _ ra rb => exact hs.commit hp hle (by rw [subfield_and, subfield_and, hs ra, hs rb]) h₁ h₂
  | vor _ ra rb => exact hs.commit hp hle (by rw [subfield_or, subfield_or, hs ra, hs rb]) h₁ h₂
  | vxor _ ra rb => exact hs.commit hp hle (by rw [subfield_xor, subfield_xor, hs ra, hs rb]) h₁ h₂
  | vnot _ ra => exact hs.commit hp hle (by rw [subfield_not hle, subfield_not hle, hs ra]) h₁ h₂
  | vmov _ ra => exact hs.commit hp hle (hs ra) h₁ h₂
  | vadd _ ra rb | vsub _ ra rb | vsll _ ra rb | vsrl _ ra rb | vsra _ ra rb =>
    obtain rfl := Option.some.inj hi
    exact hs.commit hp hle (subfield_zipLanes_congr hk _ (hs ra) (hs rb)) h₁ h₂
  | vrtth _ ra | vslli _ ra | vsrli _ ra | vsrai _ ra =>
    obtain rfl := Option.some.inj hi
    exact hs.commit hp hle (subfield_mapLanes_congr hk _ (hs ra)) h₁ h₂
  | vmuleu | vmulou | vsqeu | vsqou | vld | vsd | vbez | vbnez | vnop => cases hi

end Agreement

end Sys2Proof.Machine

namespace Sys2Proof.Proofs

open Sys2Proof.Machine
open Sys2Proof.Safety

/-- Settles O49. -/
theorem subfieldsAreIsolated : Obligations.SubfieldsAreIsolated :=
  fun _ _ _ _ _ _ _ hi hk hp hs h₁ h₂ => AgreeOnSubfield.exec hp hs hi hk h₁ h₂

/-- Settles O18: the sum of two words of `size` bits is the sum modulo 2^size. -/
theorem vaddAddsSubfields : Obligations.VaddAddsSubfields := by
  intro rd ra rb p ww s
  obtain ⟨t, v, hnext, hlanes, hcommits⟩ := s.commit_zipLanes_commits rd ra rb p ww fun a b => a + b
  refine ⟨t, v, hnext, fun k hk => ?_, hcommits⟩
  rw [hlanes k hk, BitVec.toNat_add]

/-- Settles O19: adding the two's complement is subtracting (`add_not_add_one`), modulo 2^size. -/
theorem vsubSubtractsSubfields : Obligations.VsubSubtractsSubfields := by
  intro rd ra rb p ww s
  obtain ⟨t, v, hnext, hlanes, hcommits⟩ := s.commit_zipLanes_commits rd ra rb p ww fun a b => a + ~~~b + 1
  refine ⟨t, v, hnext, fun k hk => ?_, hcommits⟩
  rw [hlanes k hk, add_not_add_one, toNat_sub_eq_emod]

end Sys2Proof.Proofs
end

section
/-! PROOFS. Multiply and square (42_multiply_square.md). First the exactness of a product in twice the width (R125), then what
the commit of products leaves behind, which the four instructions share (R124). -/

namespace Sys2Proof

/-- The widths of the multiplies are all but 64 bits (R67). -/
theorem Width.multiplies_of_ne_d {ww : Width} (h : ww ≠ .d) : ww.multiplies = true := by
  cases ww with
  | b | h | w => rfl
  | d => exact absurd rfl h

/-- A product of two words below 2^size is below 2^(2 * size), so no bit of it is lost (R125). -/
theorem toNat_wideProduct {size : Nat} (a b : BitVec size) :
    (Machine.wideProduct a b).toNat = a.toNat * b.toNat := by
  have hle : size ≤ 2 * size := Nat.le_mul_of_pos_left size Nat.two_pos
  have ha : (a.setWidth (2 * size)).toNat = a.toNat := BitVec.toNat_setWidth_of_le hle
  have hb : (b.setWidth (2 * size)).toNat = b.toNat := BitVec.toNat_setWidth_of_le hle
  have hlt : a.toNat * b.toNat < 2 ^ (2 * size) := Nat.mul_comm size 2 ▸ BitVec.toNat_mul_toNat_lt
  rw [Machine.wideProduct, BitVec.toNat_mul_of_lt (by rwa [ha, hb]), ha, hb]

end Sys2Proof

namespace Sys2Proof.Machine

open Sys2Proof.Safety

theorem State.commitProducts_of_multiplies {ww : Width} (h : ww.multiplies = true) (s : State) (d : Reg)
    (p : Participation) (v : DWord) : s.commitProducts d p ww v = s.commit d p v := if_pos h

/-- A multiply or square at a legal width always has a next state, which commits the exact products of the even or the odd
subfields (R124, R125). -/
theorem State.commitProducts_commits {ww : Width} (hww : ww ≠ .d) (s : State) (d ra rb : Reg) (p : Participation)
    (odd : Nat) :
    ∃ t v, s.commitProducts d p ww (products ww odd (s.readReg ra) (s.readReg rb)) = .next t ∧
      (∀ m < ww.pairs, (subfield (2 * ww.size) v m).toNat =
        (subfield ww.size (s.readReg ra) (2 * m + odd)).toNat * (subfield ww.size (s.readReg rb) (2 * m + odd)).toNat) ∧
      Commits s t d p v := by
  have hmul := Width.multiplies_of_ne_d hww
  obtain ⟨t, hnext, hcommits⟩ := s.commit_commits d p (products ww odd (s.readReg ra) (s.readReg rb))
  refine ⟨t, _, (s.commitProducts_of_multiplies hmul d p _).trans hnext, fun m hm => ?_, hcommits⟩
  rw [subfield_products hmul odd _ _ hm, toNat_wideProduct]

/-- The products of a register with itself are the squares of its subfields (R122, R123). -/
theorem State.commitProducts_self_commits {ww : Width} (hww : ww ≠ .d) (s : State) (d ra : Reg) (p : Participation)
    (odd : Nat) :
    ∃ t v, s.commitProducts d p ww (products ww odd (s.readReg ra) (s.readReg ra)) = .next t ∧
      (∀ m < ww.pairs, (subfield (2 * ww.size) v m).toNat =
        (subfield ww.size (s.readReg ra) (2 * m + odd)).toNat ^ 2) ∧
      Commits s t d p v := by
  obtain ⟨t, v, hnext, hproducts, hcommits⟩ := s.commitProducts_commits hww d ra ra p odd
  exact ⟨t, v, hnext, fun m hm => (hproducts m hm).trans (Nat.pow_two _).symm, hcommits⟩

end Sys2Proof.Machine

namespace Sys2Proof.Proofs

open Sys2Proof.Machine
open Sys2Proof.Safety

/-- Settles O20: the even instruction takes the products at offset 0, the odd one those at offset 1. -/
theorem multiplyGivesExactProducts : Obligations.MultiplyGivesExactProducts := by
  intro rd ra rb p ww s hww
  refine ⟨?vmuleu, ?vmulou⟩
  case vmuleu => exact s.commitProducts_commits hww rd ra rb p 0
  case vmulou => exact s.commitProducts_commits hww rd ra rb p 1

/-- Settles O21: a square is the product of a subfield with itself, at offset 0 or 1. -/
theorem squareGivesExactSquares : Obligations.SquareGivesExactSquares := by
  intro rd ra p ww s hww
  refine ⟨?vsqeu, ?vsqou⟩
  case vsqeu => exact s.commitProducts_self_commits hww rd ra p 0
  case vsqou => exact s.commitProducts_self_commits hww rd ra p 1

end Sys2Proof.Proofs
end

section
/-! PROOFS. Rotate by half and shifts (43_rotate_shift.md). First the amounts (R131, R132) and what the rotation and the three
kinds of shift do to one subfield, as arithmetic (R130, R133 to R139); then what their commits leave behind. -/

namespace Sys2Proof

/-! ### Amounts -/

/-- The number of low bits that a register form takes of rB's subfield is `log2(size)` (R131). -/
theorem laneAmount_eq_setWidth {ww : Width} {bits : Nat} (h : ww.size = 2 ^ bits) (b : BitVec ww.size) :
    laneAmount ww b = (b.setWidth bits).toNat := by
  rw [BitVec.toNat_setWidth, ← h, laneAmount]

theorem laneAmount_lt (ww : Width) (b : BitVec ww.size) : laneAmount ww b < ww.size := Nat.mod_lt _ ww.size_pos

/-- The field of an immediate form has as many bits as an amount below the width needs, but 5 of the 6 at 64 bits (R132). -/
theorem Width.two_pow_immBits_le_size (ww : Width) : 2 ^ ww.immBits ≤ ww.size :=
  ww.size_eq ▸ Nat.pow_le_pow_right Nat.two_pos (Nat.le_add_right ..)

theorem immAmount_lt_two_pow (ww : Width) (sh : BitVec 5) : immAmount ww sh < 2 ^ ww.immBits :=
  Nat.mod_lt _ (Nat.two_pow_pos _)

theorem immAmount_lt (ww : Width) (sh : BitVec 5) : immAmount ww sh < ww.size :=
  (immAmount_lt_two_pow ww sh).trans_le ww.two_pow_immBits_le_size

/-! ### The rotation -/

theorem Width.size_eq_half_add_half (ww : Width) : ww.size = ww.size / 2 + ww.size / 2 := by cases ww <;> rfl

section Halves

/-! In a word of two equal halves, as all widths have (R66). -/

variable {size : Nat} (h : size = size / 2 + size / 2)
include h

theorem toNat_div_half_lt (a : BitVec size) : a.toNat / 2 ^ (size / 2) < 2 ^ (size / 2) := by
  refine Nat.div_lt_of_lt_mul ?_
  rw [← Nat.pow_add, ← h]
  exact a.isLt

/-- The two halves do not overlap, so their OR is their sum (R130). -/
theorem toNat_swapHalves (a : BitVec size) :
    (swapHalves a).toNat = a.toNat % 2 ^ (size / 2) * 2 ^ (size / 2) + a.toNat / 2 ^ (size / 2) := by
  have hpow : 2 ^ size = 2 ^ (size / 2) * 2 ^ (size / 2) := by rw [← Nat.pow_add, ← h]
  rw [swapHalves, BitVec.toNat_or, BitVec.toNat_shiftLeft, BitVec.toNat_ushiftRight, Nat.shiftLeft_eq,
    Nat.shiftRight_eq_div_pow, hpow, Nat.mul_mod_mul_right, ← Nat.shiftLeft_eq,
    Nat.shiftLeft_add_eq_or_of_lt (toNat_div_half_lt h a)]

/-- The exchange is its own inverse (R130): the halves of the sum are the halves of the source, the other way round. -/
theorem swapHalves_swapHalves (a : BitVec size) : swapHalves (swapHalves a) = a := by
  have hupper := toNat_div_half_lt h a
  have hlow : (swapHalves a).toNat % 2 ^ (size / 2) = a.toNat / 2 ^ (size / 2) := by
    rw [toNat_swapHalves h, Nat.mul_add_mod', Nat.mod_eq_of_lt hupper]
  have hhigh : (swapHalves a).toNat / 2 ^ (size / 2) = a.toNat % 2 ^ (size / 2) := by
    rw [toNat_swapHalves h, Nat.add_comm, Nat.add_mul_div_right _ _ (Nat.two_pow_pos _),
      Nat.div_eq_of_lt hupper, Nat.zero_add]
  apply BitVec.eq_of_toNat_eq
  rw [toNat_swapHalves h, hlow, hhigh, Nat.div_add_mod']

end Halves

/-! ### The shifts -/

/-- A left shift multiplies, modulo 2^size (R133). -/
theorem toNat_shiftLeft_eq_mul {size : Nat} (a : BitVec size) (n : Nat) :
    (a <<< n).toNat = a.toNat * 2 ^ n % 2 ^ size := by
  rw [BitVec.toNat_shiftLeft, Nat.shiftLeft_eq]

/-- A logical right shift divides (R135). -/
theorem toNat_ushiftRight_eq_div {size : Nat} (a : BitVec size) (n : Nat) : (a >>> n).toNat = a.toNat / 2 ^ n := by
  rw [BitVec.toNat_ushiftRight, Nat.shiftRight_eq_div_pow]

/-- The copies of the sign come from a word whose bits below `s` are set (R137). -/
theorem getLsbD_lowOnes {size s : Nat} (hs : s < size) (i : Nat) :
    ((1#size <<< s) - 1#size).getLsbD i = decide (i < s) := by
  have hpow : (BitVec.twoPow size s).toNat = 2 ^ s := BitVec.toNat_twoPow_of_lt hs
  have hone : (1#size).toNat = 1 := BitVec.toNat_one (Nat.zero_lt_of_lt hs)
  have hle : 1#size ≤ BitVec.twoPow size s := by
    rw [BitVec.le_def, hpow, hone]
    exact Nat.one_le_two_pow
  rw [← BitVec.twoPow_eq, ← BitVec.testBit_toNat, BitVec.toNat_sub_of_le hle, hpow, hone, Nat.testBit_two_pow_sub_one]

/-- The source's expression (R137) is the arithmetic shift, bit by bit: below `size - s` a bit of the source, above it the
sign. -/
theorem shiftRightArith_eq_sshiftRight {size s : Nat} (hs : s < size) (a : BitVec size) :
    shiftRightArith a s = a.sshiftRight s := by
  apply BitVec.eq_of_getLsbD_eq
  intro i hi
  have hsign : (if a.msb then ((1#size <<< s) - 1#size) <<< (size - s) else 0).getLsbD i =
      (a.msb && decide (size ≤ s + i)) := by
    cases a.msb with
    | false => simp
    | true =>
      rw [if_pos rfl, BitVec.getLsbD_shiftLeft, getLsbD_lowOnes hs]
      grind
  rw [shiftRightArith, BitVec.getLsbD_or, BitVec.getLsbD_ushiftRight, hsign, BitVec.getLsbD_sshiftRight]
  by_cases hin : s + i < size
  · simp [-BitVec.getLsbD_eq_getElem, hin, hi, Nat.not_le.2 hin]
  · simp [-BitVec.getLsbD_eq_getElem, hin, hi, not_lt.1 hin]

/-- An arithmetic right shift divides the two's-complement value, rounding toward minus infinity (R137). -/
theorem toInt_shiftRightArith {size s : Nat} (hs : s < size) (a : BitVec size) :
    (shiftRightArith a s).toInt = Int.fdiv a.toInt (2 ^ s) := by
  rw [shiftRightArith_eq_sshiftRight hs, BitVec.toInt_sshiftRight, Int.shiftRight_eq_div_pow,
    Int.fdiv_eq_ediv_of_nonneg _ (by positivity), Nat.cast_pow, Nat.cast_two]

end Sys2Proof

namespace Sys2Proof.Machine

open Sys2Proof.Safety

/-- An operation on the subfields of one register always has a next state, which commits the result that has the operation's
value in each subfield. -/
theorem State.commit_mapLanes_commits (s : State) (d ra : Reg) (p : Participation) (ww : Width)
    (f : BitVec ww.size → BitVec ww.size) :
    ∃ t v, s.commit d p (mapLanes ww f (s.readReg ra)) = .next t ∧
      (∀ k < ww.count, subfield ww.size v k = f (subfield ww.size (s.readReg ra) k)) ∧ Commits s t d p v := by
  obtain ⟨t, hnext, hcommits⟩ := s.commit_commits d p (mapLanes ww f (s.readReg ra))
  exact ⟨t, _, hnext, fun _ hk => subfield_mapLanes ww f _ hk, hcommits⟩

/-- The register form and the immediate form of one shift always have a next state. Each commits a result whose subfields are
what the shift makes of rA's by an amount below the width (R139): the low bits of rB's subfield (R131) or of the field (R132). -/
theorem State.commit_shift_commits (s : State) (d ra rb : Reg) (sh : BitVec 5) (p : Participation) (ww : Width)
    {shift : BitVec ww.size → Nat → BitVec ww.size} {IsShifted : BitVec ww.size → Nat → BitVec ww.size → Prop}
    (hshift : ∀ a, ∀ n < ww.size, IsShifted a n (shift a n)) :
    (∃ t v, s.commit d p (zipLanes ww (fun a b => shift a (laneAmount ww b)) (s.readReg ra) (s.readReg rb)) = .next t ∧
      (∀ k < ww.count, IsShifted (subfield ww.size (s.readReg ra) k) ((subfield ww.size (s.readReg rb) k).toNat % ww.size)
        (subfield ww.size v k)) ∧ Commits s t d p v) ∧
    (∃ t v, s.commit d p (mapLanes ww (fun a => shift a (immAmount ww sh)) (s.readReg ra)) = .next t ∧
      (∀ k < ww.count, IsShifted (subfield ww.size (s.readReg ra) k) (sh.toNat % 2 ^ ww.immBits) (subfield ww.size v k)) ∧
      Commits s t d p v) := by
  refine ⟨?register, ?immediate⟩
  case register =>
    obtain ⟨t, v, hnext, hlanes, hcommits⟩ := s.commit_zipLanes_commits d ra rb p ww fun a b => shift a (laneAmount ww b)
    exact ⟨t, v, hnext, fun k hk => hlanes k hk ▸ hshift _ _ (laneAmount_lt ww _), hcommits⟩
  case immediate =>
    obtain ⟨t, v, hnext, hlanes, hcommits⟩ := s.commit_mapLanes_commits d ra p ww fun a => shift a (immAmount ww sh)
    exact ⟨t, v, hnext, fun k hk => hlanes k hk ▸ hshift _ _ (immAmount_lt ww sh), hcommits⟩

/-- After VRTTH under PPP = 000 each subfield of rD is rA's with the halves exchanged, unless rD is a hardwired register 0. -/
theorem subfield_exec_vrtth_all {s t : State} {rd ra : Reg} {ww : Width} (h : exec (.vrtth rd ra .all ww) s = .next t)
    (hd : ¬ Discards s rd) {k : Nat} (hk : k < ww.count) :
    subfield ww.size (t.readReg rd) k = swapHalves (subfield ww.size (s.readReg ra) k) := by
  obtain ⟨t', v, hnext, hlanes, hcommits⟩ := s.commit_mapLanes_commits rd ra .all ww fun a => swapHalves a
  obtain rfl : t' = t := Host.Outcome.next.inj (hnext.symm.trans h)
  rw [hcommits.readReg_of_all hd, hlanes k hk]

end Sys2Proof.Machine

namespace Sys2Proof.Proofs

open Sys2Proof.Machine
open Sys2Proof.Safety

/-- Settles O23: each subfield of the result is the exchange of rA's, which `toNat_swapHalves` writes as the sum of R130. -/
theorem vrtthSwapsHalves : Obligations.VrtthSwapsHalves := by
  intro rd ra p ww s
  obtain ⟨t, v, hnext, hlanes, hcommits⟩ := s.commit_mapLanes_commits rd ra p ww fun a => swapHalves a
  refine ⟨t, v, hnext, fun k hk => ?_, hcommits⟩
  rw [hlanes k hk, toNat_swapHalves ww.size_eq_half_add_half]

/-- Settles O24: two exchanges of a subfield's halves restore it, and a hardwired register 0 reads as 0 throughout. -/
theorem vrtthTwiceRestores : Obligations.VrtthTwiceRestores := by
  rintro r p ww s t u rfl hst htu
  obtain ⟨_, hts⟩ := exec_imem_params hst
  obtain ⟨_, hut⟩ := exec_imem_params htu
  by_cases hd : Discards s r
  · rw [State.readReg_hardwired hd, State.readReg_hardwired (by rwa [hut, hts])]
  · refine eq_of_subfields ww.size_pos ww.size_mul_count fun k hk => ?_
    have hdt : ¬ Discards t r := by rwa [Discards, hts]
    rw [subfield_exec_vrtth_all htu hdt hk, subfield_exec_vrtth_all hst hd hk,
      swapHalves_swapHalves ww.size_eq_half_add_half]

/-- Settles O27: a left shift is a multiplication (`toNat_shiftLeft_eq_mul`), in both forms. -/
theorem leftShiftsMultiply : Obligations.LeftShiftsMultiply := by
  intro rd ra rb sh p ww s
  exact s.commit_shift_commits rd ra rb sh p ww
    (IsShifted := fun a n v => v.toNat = a.toNat * 2 ^ n % 2 ^ ww.size) fun a n _ => toNat_shiftLeft_eq_mul a n

/-- Settles O28: a logical right shift is a division (`toNat_ushiftRight_eq_div`), in both forms. -/
theorem logicalRightShiftsDivide : Obligations.LogicalRightShiftsDivide := by
  intro rd ra rb sh p ww s
  exact s.commit_shift_commits rd ra rb sh p ww
    (IsShifted := fun a n v => v.toNat = a.toNat / 2 ^ n) fun a n _ => toNat_ushiftRight_eq_div a n

/-- Settles O29: an arithmetic right shift by less than the width is a floor division (`toInt_shiftRightArith`), in both
forms. -/
theorem arithmeticRightShiftsFloorDivide : Obligations.ArithmeticRightShiftsFloorDivide := by
  intro rd ra rb sh p ww s
  exact s.commit_shift_commits rd ra rb sh p ww
    (IsShifted := fun a n v => v.toInt = Int.fdiv a.toInt (2 ^ n)) fun a _ hn => toInt_shiftRightArith hn a

/-- Settles O25: the width is a power of two, so the remainder by it is the low bits. -/
theorem registerShiftAmountIsLowBits : Obligations.RegisterShiftAmountIsLowBits := by
  intro ww b
  refine ⟨?lowBits, rfl, Nat.le_sub_one_of_lt (laneAmount_lt ww b), ?fullWidth⟩
  case lowBits => cases ww <;> exact laneAmount_eq_setWidth rfl b
  case fullWidth => cases ww <;> rfl

/-- Settles O26: the bounds are those of a remainder by 2^bits. -/
theorem immediateShiftAmountIsLowBits : Obligations.ImmediateShiftAmountIsLowBits := by
  intro ww sh
  refine ⟨?lowBits, ?bound, ?wrapped⟩
  case lowBits => cases ww <;> rfl
  case bound =>
    have hlt := Nat.le_sub_one_of_lt (immAmount_lt_two_pow ww sh)
    cases ww <;> exact hlt
  case wrapped => rintro rfl (rfl | rfl | rfl) <;> rfl

end Sys2Proof.Proofs
end

section
/-! PROOFS. Load and store (44_load_store.md). A load is a commit of the whole word, as under PPP = 000; a store replaces the
eight bytes of one word and leaves the registers and the program as they were. -/

namespace Sys2Proof.Machine

open Sys2Proof.Safety

/-! ### Loads -/

theorem State.writeMasked_all (s : State) (d : Reg) (v : DWord) : s.writeMasked d .all v = s.writeReg d v := by
  rw [State.writeMasked, merge_all]

/-- A load from an address that exists commits the word there, whole (R150, R153). -/
theorem exec_vld_commits {s : State} {imm : BitVec 16} (h : imm.toNat < s.params.dmemWords) (rd : Reg) :
    ∃ t, exec (.vld rd imm) s = .next t ∧ Commits s t rd .all (s.dmemWord (zextAddr imm)) := by
  refine ⟨_, exec_vld_of_lt h rd, ?_⟩
  rw [← State.writeMasked_all]
  exact writeMasked_advance_commits ..

/-! ### Stores -/

/-- After a store the word at its address is the register's value (R151, R43). -/
theorem dmemWord_exec_vsd {s t : State} {rs : Reg} {imm : BitVec 16} (h : exec (.vsd rs imm) s = .next t) :
    t.dmemWord (zextAddr imm) = s.readReg rs := by
  obtain ⟨_, rfl⟩ := exec_vsd_next h
  rw [State.advance_dmemWord, State.dmemWord_writeBytes_same]

end Sys2Proof.Machine

namespace Sys2Proof.Proofs

open Sys2Proof.Machine
open Sys2Proof.Safety

/-- Settles O30: the word that the load commits has the eight cells as its bytes. -/
theorem vldLoadsTheWord : Obligations.VldLoadsTheWord := by
  intro rd imm s hlt
  obtain ⟨t, hnext, hcommits⟩ := exec_vld_commits hlt rd
  refine ⟨t, s.dmemWord (zextAddr imm), hnext, fun j hj => ?_, hcommits⟩
  rw [State.subfield_dmemWord s _ hj, toNat_zextAddr]

/-- Settles O31: the state after the store is the one before it but for the eight cells and the pc. -/
theorem vsdStoresTheRegister : Obligations.VsdStoresTheRegister := by
  intro rs imm s hlt
  refine ⟨_, exec_vsd_of_lt hlt rs, fun j hj => ?stored, fun a ha => ?others, fun _ => rfl, rfl, fun _ => rfl, rfl, rfl⟩
  case stored =>
    rw [State.advance_dmemByte, State.dmemByte_writeBytes, if_pos (by omega), Nat.add_sub_cancel_left, byteOf_eq_subfield]
  case others => rw [State.advance_dmemByte, State.dmemByte_writeBytes, if_neg ha]

/-- Settles O32: the store leaves the parameters alone, so the load from the same address has a step too, and it commits
the word stored. -/
theorem loadAfterStoreGivesTheStoredValue : Obligations.LoadAfterStoreGivesTheStoredValue := by
  intro rs rd imm s t u hst htu hd
  obtain ⟨hlt, _⟩ := exec_vsd_next hst
  obtain ⟨_, hparams⟩ := exec_imem_params hst
  obtain ⟨u', hnext, hcommits⟩ := exec_vld_commits (s := t) (by rwa [hparams]) rd
  obtain rfl : u' = u := Host.Outcome.next.inj (hnext.symm.trans htu)
  calc u'.readReg rd
      = t.dmemWord (zextAddr imm) := hcommits.readReg_of_all (by rwa [Discards, hparams])
    _ = s.readReg rs := dmemWord_exec_vsd hst

end Sys2Proof.Proofs
end

section
/-! PROOFS. Branches, VNOP and illegal words (45_branch_nop.md). A taken branch is a jump and one not taken an advance
(R164); VNOP and every illegal word are the no-operation, which is an advance too (R162, R163). -/

namespace Sys2Proof.Machine

open Sys2Proof.Safety

/-! ### Branches -/

/-- A jump to a multiple of the stride has a next state, in which the pc alone differs (R26). -/
theorem State.jump_moves_only_pc {s : State} {a : Nat} (h : a % s.params.pcUnit.stride = 0) :
    ∃ t, s.jump a = .next t ∧ t.pc = a ∧ RegistersKept s t ∧ MemoryKept s t :=
  ⟨_, State.jump_of_aligned h, rfl, fun _ => rfl, ⟨fun _ => rfl, fun _ => rfl, rfl, rfl⟩⟩

/-- VBEZ on a nonzero register goes on to the next instruction (R160). -/
theorem exec_vbez_of_ne_zero {s : State} {rd : Reg} (h : s.readReg rd ≠ 0) (imm : BitVec 16) :
    exec (.vbez rd imm) s = .next s.advance := by
  simp [exec, execVbez, State.branchIf, (isZero_eq_false _).2 h]

/-- VBNEZ on a zero register goes on to the next instruction (R161). -/
theorem exec_vbnez_of_zero {s : State} {rd : Reg} (h : s.readReg rd = 0) (imm : BitVec 16) :
    exec (.vbnez rd imm) s = .next s.advance := by
  simp [exec, execVbnez, State.branchIf, (isZero_eq_true _).2 h]

end Sys2Proof.Machine

namespace Sys2Proof.Proofs

open Sys2Proof.Machine
open Sys2Proof.Safety

/-- Settles O35: taken, the branch is a jump to its immediate; not taken, it is the advance. -/
theorem vbezBranchesOnZero : Obligations.VbezBranchesOnZero := by
  intro rd imm s
  refine ⟨fun hzero haligned => ?taken, fun hne => ?notTaken⟩
  case taken =>
    rw [exec_vbez_of_zero hzero]
    exact State.jump_moves_only_pc haligned
  case notTaken => exact ⟨s.advance, exec_vbez_of_ne_zero hne imm, advance_onlyAdvances s⟩

/-- Settles O36: as for VBEZ (O35), with the two outcomes of the test exchanged. -/
theorem vbnezBranchesOnNonzero : Obligations.VbnezBranchesOnNonzero := by
  intro rd imm s
  refine ⟨fun hne haligned => ?taken, fun hzero => ?notTaken⟩
  case taken =>
    rw [exec_vbnez_of_ne_zero hne]
    exact State.jump_moves_only_pc haligned
  case notTaken => exact ⟨s.advance, exec_vbnez_of_zero hzero imm, advance_onlyAdvances s⟩

/-- Settles O41: whatever the reason, the step over an illegal word is the no-operation (`step_of_decode_error`). -/
theorem illegalWordOnlyAdvances : Obligations.IllegalWordOnlyAdvances :=
  fun s _ _ hf hd => ⟨s.advance, step_of_decode_error hf hd, advance_onlyAdvances s⟩

/-- Settles O38: the word is that of O5, the text and the meaning are VNOP's own, and another word with its opcode is
illegal, so that O41 says what a step over it does. -/
theorem vnopOnlyAdvances : Obligations.VnopOnlyAdvances := by
  obtain ⟨hword, _⟩ := vnopIsOneWord
  refine ⟨hword, rfl, fun s => ⟨s.advance, rfl, advance_onlyAdvances s⟩, fun w hop hne => ?_⟩
  have hillegal : decode w = .error .notExactlyVnop := by rw [decode_of_opcodeVnop hop, if_neg hne]
  exact ⟨hillegal, fun s hf => illegalWordOnlyAdvances s w _ hf hillegal⟩

end Sys2Proof.Proofs
end

section
/-! PROOFS. That nothing traps (60_exceptions.md): no instruction is refused, and the two ways in which one is stuck
(`exec_fault_cases`) are shut out by a data memory of 65536 words (D5) and a pc that counts instructions (D3). -/

namespace Sys2Proof

/-- The address of a load or store is one of 0 to 65535 (R41). -/
theorem loads_or_stores_lt {i : Instr} {ea : Addr} (h : i.loads = some ea ∨ i.stores = some ea) : ea.toNat < 65536 := by
  have zextAddr_lt (imm : BitVec 16) (himm : some (zextAddr imm) = some ea) : ea.toNat < 65536 := by
    obtain rfl := Option.some.inj himm
    rw [toNat_zextAddr]
    exact imm.isLt
  cases i with
  | vld rd imm => exact zextAddr_lt imm (h.resolve_right nofun)
  | vsd rs imm => exact zextAddr_lt imm (h.resolve_left nofun)
  | _ => rcases h with h | h <;> cases h

end Sys2Proof

namespace Sys2Proof.Machine

/-! ### No refusal -/

theorem State.commitProducts_ne_refused {s : State} {d : Reg} {p : Participation} {ww : Width} {v : DWord} {r : Refusal} :
    s.commitProducts d p ww v ≠ .refused r := by
  unfold State.commitProducts
  split <;> nofun

theorem State.branchIf_ne_refused {s : State} {c : Bool} {a : Nat} {r : Refusal} : s.branchIf c a ≠ .refused r := by
  cases c with
  | false => nofun
  | true =>
    change s.jump a ≠ .refused r
    unfold State.jump
    split <;> nofun

/-- Every instruction has a meaning: none is refused. -/
theorem exec_ne_refused (i : Instr) (s : State) (r : Refusal) : exec i s ≠ .refused r := by
  cases i with
  | vand | vor | vxor | vnot | vmov | vadd | vsub => nofun
  | vrtth | vsll | vslli | vsrl | vsrli | vsra | vsrai => nofun
  | vmuleu | vmulou | vsqeu | vsqou => exact State.commitProducts_ne_refused
  | vld rd imm =>
    rcases Nat.lt_or_ge imm.toNat s.params.dmemWords with hlt | hle
    · rw [exec_vld_of_lt hlt]; nofun
    · rw [exec_vld_of_le hle]; nofun
  | vsd rs imm =>
    rcases Nat.lt_or_ge imm.toNat s.params.dmemWords with hlt | hle
    · rw [exec_vsd_of_lt hlt]; nofun
    · rw [exec_vsd_of_le hle]; nofun
  | vbez | vbnez => exact State.branchIf_ne_refused
  | vnop => nofun

/-! ### No fault under the two defaults -/

/-- With at least 65536 words of data memory and a pc that counts instructions, no instruction is stuck (R42, R44). -/
theorem exec_ne_fault {s : State} (hsize : 65536 ≤ s.params.dmemWords) (hunit : s.params.pcUnit = .instruction) (i : Instr)
    (f : Fault) : exec i s ≠ .fault f := by
  intro h
  rcases exec_fault_cases h with ⟨ea, haccess, hbeyond, _⟩ | ⟨a, _, hmisaligned, _⟩
  · exact absurd ((loads_or_stores_lt haccess).trans_le hsize) (Nat.not_lt.2 hbeyond)
  · rw [hunit] at hmisaligned
    exact hmisaligned (Nat.mod_one a)

end Sys2Proof.Machine

namespace Sys2Proof.Proofs

open Sys2Proof.Machine

/-- Settles O43: an illegal word is a no-operation, and a decoded instruction neither refuses nor faults. -/
theorem everyFetchedWordCompletes : Obligations.EveryFetchedWordCompletes := by
  intro s w hsize hunit hf
  cases hd : decode w with
  | error reason => exact ⟨s.advance, step_of_decode_error hf hd⟩
  | ok i =>
    rw [step_of_decode_ok hf hd]
    cases hi : exec i s with
    | next t => exact ⟨t, rfl⟩
    | fault f => exact absurd hi (exec_ne_fault hsize hunit i f)
    | refused r => exact absurd hi (exec_ne_refused i s r)

end Sys2Proof.Proofs
end

section
/-! PROOFS. What the host places (R192) and the hazard distance (R197). A word placed at an aligned pc is the word fetched next;
with a distance of 0 nothing executed is remembered and no slot after a branch is looked at, so that no step is refused. -/

namespace Sys2Proof.Machine

/-! ### Placing an instruction -/

/-- A word given by its number, all 32 bits of it, is placed as it is. -/
theorem State.withFetchWord_toNat (s : State) (w : Insn) : s.withFetchWord 32 w.toNat = s.placeInsn s.pc w := by
  rw [State.withFetchWord, Nat.mod_eq_of_lt w.isLt, BitVec.ofNat_toNat, BitVec.setWidth_eq]

/-- The step at an aligned pc where a well-formed instruction's word has been placed is that instruction (R25). -/
theorem step_placeInsn_encode {s : State} {i : Instr} (hi : WellFormed i = true)
    (haligned : s.pc % s.params.pcUnit.stride = 0) :
    step (s.placeInsn s.pc (encode i)) = exec i (s.placeInsn s.pc (encode i)) :=
  step_of_decode_ok (State.fetchWord_placeInsn_same s s.pc (encode i) haligned) (decode_encode hi)

end Sys2Proof.Machine

namespace Sys2Proof.Safety

open Sys2Proof.Machine

/-! ### Hazards -/

/-- With distance 0 and nothing remembered, a run is hazard free if what follows its first step is. -/
theorem hazardFree_succ_of_distance_zero {n : Nat} {s : State} (hzero : s.params.hazardDistance = 0)
    (hrest : ∀ t, step s = .next t → hazardFree n [] t = true) : hazardFree (n + 1) [] s = true := by
  unfold hazardFree
  cases s.fetchWord s.pc with
  | none => rfl
  | some w =>
    simp only [hzero, slotsPadded, List.all_nil, Bool.or_true, Bool.true_and, List.take_zero]
    cases hst : step s with
    | next t => exact hrest t hst
    | fault f => rfl
    | refused r => rfl

end Sys2Proof.Safety

namespace Sys2Proof.Proofs

open Sys2Proof.Machine
open Sys2Proof.Safety

/-- Settles O40: the word placed is the word fetched, and it decodes to the instruction (`step_placeInsn_encode`). -/
theorem placedInstructionRunsNext : Obligations.PlacedInstructionRunsNext := by
  intro s i hi haligned
  rw [State.withFetchWord_toNat]
  exact ⟨step_placeInsn_encode hi haligned, rfl, rfl, rfl, rfl⟩

/-- Settles O55, by induction on the number of steps: no step changes the distance, and a distance of 0 remembers nothing. -/
theorem defaultHazardDistanceRefusesNothing : Obligations.DefaultHazardDistanceRefusesNothing := by
  intro n
  induction n with
  | zero => exact fun _ _ => rfl
  | succ n ih =>
    intro s hzero
    refine hazardFree_succ_of_distance_zero hzero fun t hstep => ih t ?_
    obtain ⟨_, hparams⟩ := step_imem_params hstep
    rw [hparams, hzero]

end Sys2Proof.Proofs
end
